-- ==== Sys2Proof/Word.lean ====
section
/-! DEFINITION. The word types of the core (00_scope R9, R11): every value of the machine is unsigned. -/

namespace Sys2Proof

/-- A memory byte, a general register, a timer, the immediate `NN` (R9, R11: u8). -/
abbrev Byte := BitVec 8

/-- The program counter, the index register, a stack entry, an instruction word (R9: u16). -/
abbrev Word := BitVec 16

/-- The number of a general register, 0 to 15 (10_state R21). -/
abbrev Reg := Fin 16

/-- `VF`, which is `V[15]` (10_state R21). -/
abbrev VF : Reg := 15

/-- The number of a hex key, 0 to 15 (10_state R31). -/
abbrev Key := Fin 16

end Sys2Proof
end

