-- ==== Sys2Proof/Syntax.lean ====
section
/-! DEFINITION. The syntax: one constructor per row of spec/opcode_table.json, in the table's order (30_encoding R85). -/

namespace Sys2Proof

/-- The 34 instructions. `x` and `y` are the fields X and Y, `nn` the byte immediate NN, `nnn` the address immediate NNN,
`n` the count N of sprite rows (30_encoding R72, R73). `low` is the low nibble w[3:0] of a 5XYn or 9XYn word: those
instructions ignore it (R77), and it is kept because the cycle latches the whole word in `opcode` (log entry 10). -/
inductive Instr where
  /-- `00E0`, `CLS` (42_display R150). -/
  | cls
  /-- `00EE`, `RET` (40_control_flow R100). -/
  | ret
  /-- `1NNN`, `JP addr` (R101). -/
  | jp (nnn : BitVec 12)
  /-- `2NNN`, `CALL addr` (R102). -/
  | call (nnn : BitVec 12)
  /-- `3XNN`, `SE Vx, byte` (R103). -/
  | seByte (x : Reg) (nn : Byte)
  /-- `4XNN`, `SNE Vx, byte` (R104). -/
  | sneByte (x : Reg) (nn : Byte)
  /-- `5XY0`, `SE Vx, Vy` (R105). -/
  | seReg (x y : Reg) (low : BitVec 4)
  /-- `6XNN`, `LD Vx, byte` (41_alu R121). -/
  | ldByte (x : Reg) (nn : Byte)
  /-- `7XNN`, `ADD Vx, byte` (R122). -/
  | addByte (x : Reg) (nn : Byte)
  /-- `8XY0`, `LD Vx, Vy` (R123). -/
  | ldReg (x y : Reg)
  /-- `8XY1`, `OR Vx, Vy` (R124). -/
  | orReg (x y : Reg)
  /-- `8XY2`, `AND Vx, Vy` (R125). -/
  | andReg (x y : Reg)
  /-- `8XY3`, `XOR Vx, Vy` (R126). -/
  | xorReg (x y : Reg)
  /-- `8XY4`, `ADD Vx, Vy` (R127). -/
  | addReg (x y : Reg)
  /-- `8XY5`, `SUB Vx, Vy` (R128). -/
  | subReg (x y : Reg)
  /-- `8XY6`, `SHR Vx, Vy` (R129). -/
  | shr (x y : Reg)
  /-- `8XY7`, `SUBN Vx, Vy` (R130). -/
  | subn (x y : Reg)
  /-- `8XYE`, `SHL Vx, Vy` (R131). -/
  | shl (x y : Reg)
  /-- `9XY0`, `SNE Vx, Vy` (R106). -/
  | sneReg (x y : Reg) (low : BitVec 4)
  /-- `ANNN`, `LD I, addr` (43_index_memory R160). -/
  | ldI (nnn : BitVec 12)
  /-- `BNNN`, `JP V0, addr` (R107). -/
  | jpV0 (nnn : BitVec 12)
  /-- `CXNN`, `RND Vx, byte` (R132). -/
  | rnd (x : Reg) (nn : Byte)
  /-- `DXYN`, `DRW Vx, Vy, nibble` (42_display R151). -/
  | drw (x y : Reg) (n : Nat)
  /-- `EX9E`, `SKP Vx` (44_keypad_timer R182). -/
  | skp (x : Reg)
  /-- `EXA1`, `SKNP Vx` (R183). -/
  | sknp (x : Reg)
  /-- `FX07`, `LD Vx, DT` (R184). -/
  | ldVxDT (x : Reg)
  /-- `FX0A`, `LD Vx, K` (R185). -/
  | ldVxK (x : Reg)
  /-- `FX15`, `LD DT, Vx` (R186). -/
  | ldDTVx (x : Reg)
  /-- `FX18`, `LD ST, Vx` (R187). -/
  | ldSTVx (x : Reg)
  /-- `FX1E`, `ADD I, Vx` (R161). -/
  | addI (x : Reg)
  /-- `FX29`, `LD F, Vx` (R162). -/
  | ldF (x : Reg)
  /-- `FX33`, `LD B, Vx` (R163). -/
  | ldB (x : Reg)
  /-- `FX55`, `LD [I], Vx` (R164). -/
  | dump (x : Reg)
  /-- `FX65`, `LD Vx, [I]` (R165). -/
  | load (x : Reg)
deriving DecidableEq, Repr

end Sys2Proof
end

