-- ==== Sys2Proof/WellFormed.lean ====
section
/-! DEFINITION. Which terms of the syntax a word can hold. -/

namespace Sys2Proof

/-- An instruction that a word can hold. The types of the operands bound every field but N, the count of sprite
rows, which is 0 to 15 (30_encoding R72, R73; log entry 10). -/
def Instr.wellFormed : Instr → Bool
  | .drw _ _ n => decide (n ≤ 15)
  | .cls | .ret | .jp _ | .call _ | .seByte _ _ | .sneByte _ _ | .seReg _ _ _ | .ldByte _ _ | .addByte _ _ => true
  | .ldReg _ _ | .orReg _ _ | .andReg _ _ | .xorReg _ _ | .addReg _ _ | .subReg _ _ | .shr _ _ | .subn _ _ | .shl _ _ => true
  | .sneReg _ _ _ | .ldI _ | .jpV0 _ | .rnd _ _ | .skp _ | .sknp _ | .ldVxDT _ | .ldVxK _ | .ldDTVx _ | .ldSTVx _ => true
  | .addI _ | .ldF _ | .ldB _ | .dump _ | .load _ => true

end Sys2Proof
end

