-- ==== Sys2Proof/Decode.lean ====
section
/-! DEFINITION. The decoder (30_encoding R70 to R82), the encoder and the opcode table (R88), with the byte-order helpers. -/

namespace Sys2Proof

/-! ## Bytes of a word (20_memory R52: the lower address holds bits 15:8) -/

/-- The word whose bits 15:8 are `hi` and whose bits 7:0 are `lo`. -/
def bigEndian (hi lo : Byte) : Word := hi ++ lo

/-- Bits 15:8 of a word. -/
def highByte (w : Word) : Byte := w.extractLsb' 8 8

/-- Bits 7:0 of a word. -/
def lowByte (w : Word) : Byte := w.extractLsb' 0 8

/-- The two bytes of a word in the order memory holds them. -/
def wordBytes (w : Word) : List Byte := [highByte w, lowByte w]

/-! ## Fields (R72) -/

/-- The family F = w[15:12]. -/
def family (w : Word) : Nat := (w.extractLsb' 12 4).toNat

/-- X = w[11:8]. -/
def fieldX (w : Word) : Reg := (w.extractLsb' 8 4).toFin

/-- Y = w[7:4]. -/
def fieldY (w : Word) : Reg := (w.extractLsb' 4 4).toFin

/-- w[3:0], as bits. -/
def fieldLow (w : Word) : BitVec 4 := w.extractLsb' 0 4

/-- N = w[3:0], as a count or a selector. -/
def fieldN (w : Word) : Nat := (fieldLow w).toNat

/-- NN = w[7:0]. -/
def fieldNN (w : Word) : Byte := w.extractLsb' 0 8

/-- NNN = w[11:0]. -/
def fieldNNN (w : Word) : BitVec 12 := w.extractLsb' 0 12

/-! ## Decode (R75): total; `none` is the spec's `Unknown` -/

/-- Family 0x0 compares the whole word (R76, D14). -/
def decodeFamily0 (w : Word) : Option Instr :=
  if w = 0x00E0#16 then some .cls
  else if w = 0x00EE#16 then some .ret
  else none

/-- Family 0x8 is selected by N (R78). -/
def decodeFamily8 (w : Word) : Option Instr :=
  match fieldN w with
  | 0x0 => some (.ldReg (fieldX w) (fieldY w))
  | 0x1 => some (.orReg (fieldX w) (fieldY w))
  | 0x2 => some (.andReg (fieldX w) (fieldY w))
  | 0x3 => some (.xorReg (fieldX w) (fieldY w))
  | 0x4 => some (.addReg (fieldX w) (fieldY w))
  | 0x5 => some (.subReg (fieldX w) (fieldY w))
  | 0x6 => some (.shr (fieldX w) (fieldY w))
  | 0x7 => some (.subn (fieldX w) (fieldY w))
  | 0xE => some (.shl (fieldX w) (fieldY w))
  | _ => none

/-- Family 0xE is selected by NN (R79). -/
def decodeFamilyE (w : Word) : Option Instr :=
  match (fieldNN w).toNat with
  | 0x9E => some (.skp (fieldX w))
  | 0xA1 => some (.sknp (fieldX w))
  | _ => none

/-- Family 0xF is selected by NN (R80). -/
def decodeFamilyF (w : Word) : Option Instr :=
  match (fieldNN w).toNat with
  | 0x07 => some (.ldVxDT (fieldX w))
  | 0x0A => some (.ldVxK (fieldX w))
  | 0x15 => some (.ldDTVx (fieldX w))
  | 0x18 => some (.ldSTVx (fieldX w))
  | 0x1E => some (.addI (fieldX w))
  | 0x29 => some (.ldF (fieldX w))
  | 0x33 => some (.ldB (fieldX w))
  | 0x55 => some (.dump (fieldX w))
  | 0x65 => some (.load (fieldX w))
  | _ => none

/-- The decoder (R75, R77, R81). A nibble has no value above 0xF, so the last arm is never taken. -/
def decode (w : Word) : Option Instr :=
  match family w with
  | 0x0 => decodeFamily0 w
  | 0x1 => some (.jp (fieldNNN w))
  | 0x2 => some (.call (fieldNNN w))
  | 0x3 => some (.seByte (fieldX w) (fieldNN w))
  | 0x4 => some (.sneByte (fieldX w) (fieldNN w))
  | 0x5 => some (.seReg (fieldX w) (fieldY w) (fieldLow w))
  | 0x6 => some (.ldByte (fieldX w) (fieldNN w))
  | 0x7 => some (.addByte (fieldX w) (fieldNN w))
  | 0x8 => decodeFamily8 w
  | 0x9 => some (.sneReg (fieldX w) (fieldY w) (fieldLow w))
  | 0xA => some (.ldI (fieldNNN w))
  | 0xB => some (.jpV0 (fieldNNN w))
  | 0xC => some (.rnd (fieldX w) (fieldNN w))
  | 0xD => some (.drw (fieldX w) (fieldY w) (fieldN w))
  | 0xE => decodeFamilyE w
  | 0xF => decodeFamilyF w
  | _ => none

/-- What the decoder reads from a sequence of bytes: an instruction with the bytes after it, or a rejection by name. -/
inductive Decoded where
  /-- The first two bytes are an instruction. -/
  | instr (i : Instr) (rest : List Byte)
  /-- The first two bytes are the unknown word `w` (R82). -/
  | unknownOpcode (w : Word)
  /-- Fewer than two bytes (R71: one length, two bytes). -/
  | truncated
deriving DecidableEq, Repr

/-- The decoder on bytes in memory order (R71). -/
def decodeBytes : List Byte → Decoded
  | hi :: lo :: rest =>
    match decode (bigEndian hi lo) with
    | some i => .instr i rest
    | none => .unknownOpcode (bigEndian hi lo)
  | _ => .truncated

/-- The word of a table row's number: its low `nbits` bits, every bit above them 0 (R88; an instruction has 16 bits). -/
def tableWord (nbits w : Nat) : Word := BitVec.ofNat 16 (w % 2 ^ nbits)

/-- The instruction the decoder reads from the word the opcode table numbers `w`. -/
def decodeTableWord (nbits w : Nat) : Option Instr :=
  match decodeBytes (wordBytes (tableWord nbits w)) with
  | .instr i _ => some i
  | .unknownOpcode _ => none
  | .truncated => none

/-! ## Encode (the formats of R74) -/

/-- Format NNN: F:4, NNN:12. -/
def packNNN (f : BitVec 4) (nnn : BitVec 12) : Word := f ++ nnn

/-- Format XNN, and XSS with the selector as NN: F:4, X:4, NN:8. -/
def packXNN (f : BitVec 4) (x : Reg) (nn : Byte) : Word := (f ++ (BitVec.ofFin x : BitVec 4)) ++ nn

/-- Formats XY0, XYS and XYN: F:4, X:4, Y:4, and the low nibble. -/
def packXYN (f : BitVec 4) (x y : Reg) (n : BitVec 4) : Word :=
  ((f ++ (BitVec.ofFin x : BitVec 4)) ++ (BitVec.ofFin y : BitVec 4)) ++ n

/-- The word of an instruction. -/
def encode : Instr → Word
  | .cls => 0x00E0#16
  | .ret => 0x00EE#16
  | .jp nnn => packNNN 0x1 nnn
  | .call nnn => packNNN 0x2 nnn
  | .seByte x nn => packXNN 0x3 x nn
  | .sneByte x nn => packXNN 0x4 x nn
  | .seReg x y low => packXYN 0x5 x y low
  | .ldByte x nn => packXNN 0x6 x nn
  | .addByte x nn => packXNN 0x7 x nn
  | .ldReg x y => packXYN 0x8 x y 0x0
  | .orReg x y => packXYN 0x8 x y 0x1
  | .andReg x y => packXYN 0x8 x y 0x2
  | .xorReg x y => packXYN 0x8 x y 0x3
  | .addReg x y => packXYN 0x8 x y 0x4
  | .subReg x y => packXYN 0x8 x y 0x5
  | .shr x y => packXYN 0x8 x y 0x6
  | .subn x y => packXYN 0x8 x y 0x7
  | .shl x y => packXYN 0x8 x y 0xE
  | .sneReg x y low => packXYN 0x9 x y low
  | .ldI nnn => packNNN 0xA nnn
  | .jpV0 nnn => packNNN 0xB nnn
  | .rnd x nn => packXNN 0xC x nn
  | .drw x y n => packXYN 0xD x y (BitVec.ofNat 4 n)
  | .skp x => packXNN 0xE x 0x9E
  | .sknp x => packXNN 0xE x 0xA1
  | .ldVxDT x => packXNN 0xF x 0x07
  | .ldVxK x => packXNN 0xF x 0x0A
  | .ldDTVx x => packXNN 0xF x 0x15
  | .ldSTVx x => packXNN 0xF x 0x18
  | .addI x => packXNN 0xF x 0x1E
  | .ldF x => packXNN 0xF x 0x29
  | .ldB x => packXNN 0xF x 0x33
  | .dump x => packXNN 0xF x 0x55
  | .load x => packXNN 0xF x 0x65

/-! ## The opcode table (R88) -/

/-- One row of opcode_table.json: a word `w` matches it when `w &&& mask = fixed`. -/
structure OpcodeRow where
  fixed : Word
  mask : Word
deriving DecidableEq, Repr

/-- A word matches a row (R88). -/
def OpcodeRow.holds (r : OpcodeRow) (w : Word) : Bool := decide (w &&& r.mask = r.fixed)

/-- The table's row of each instruction. -/
def opcodeRow : Instr → OpcodeRow
  | .cls => ⟨0x00E0, 0xFFFF⟩
  | .ret => ⟨0x00EE, 0xFFFF⟩
  | .jp _ => ⟨0x1000, 0xF000⟩
  | .call _ => ⟨0x2000, 0xF000⟩
  | .seByte _ _ => ⟨0x3000, 0xF000⟩
  | .sneByte _ _ => ⟨0x4000, 0xF000⟩
  | .seReg _ _ _ => ⟨0x5000, 0xF000⟩
  | .ldByte _ _ => ⟨0x6000, 0xF000⟩
  | .addByte _ _ => ⟨0x7000, 0xF000⟩
  | .ldReg _ _ => ⟨0x8000, 0xF00F⟩
  | .orReg _ _ => ⟨0x8001, 0xF00F⟩
  | .andReg _ _ => ⟨0x8002, 0xF00F⟩
  | .xorReg _ _ => ⟨0x8003, 0xF00F⟩
  | .addReg _ _ => ⟨0x8004, 0xF00F⟩
  | .subReg _ _ => ⟨0x8005, 0xF00F⟩
  | .shr _ _ => ⟨0x8006, 0xF00F⟩
  | .subn _ _ => ⟨0x8007, 0xF00F⟩
  | .shl _ _ => ⟨0x800E, 0xF00F⟩
  | .sneReg _ _ _ => ⟨0x9000, 0xF000⟩
  | .ldI _ => ⟨0xA000, 0xF000⟩
  | .jpV0 _ => ⟨0xB000, 0xF000⟩
  | .rnd _ _ => ⟨0xC000, 0xF000⟩
  | .drw _ _ _ => ⟨0xD000, 0xF000⟩
  | .skp _ => ⟨0xE09E, 0xF0FF⟩
  | .sknp _ => ⟨0xE0A1, 0xF0FF⟩
  | .ldVxDT _ => ⟨0xF007, 0xF0FF⟩
  | .ldVxK _ => ⟨0xF00A, 0xF0FF⟩
  | .ldDTVx _ => ⟨0xF015, 0xF0FF⟩
  | .ldSTVx _ => ⟨0xF018, 0xF0FF⟩
  | .addI _ => ⟨0xF01E, 0xF0FF⟩
  | .ldF _ => ⟨0xF029, 0xF0FF⟩
  | .ldB _ => ⟨0xF033, 0xF0FF⟩
  | .dump _ => ⟨0xF055, 0xF0FF⟩
  | .load _ => ⟨0xF065, 0xF0FF⟩

/-- The 34 rows, in the table's order. -/
def opcodeTable : List OpcodeRow :=
  [.cls, .ret, .jp 0, .call 0, .seByte 0 0, .sneByte 0 0, .seReg 0 0 0, .ldByte 0 0, .addByte 0 0,
    .ldReg 0 0, .orReg 0 0, .andReg 0 0, .xorReg 0 0, .addReg 0 0, .subReg 0 0, .shr 0 0, .subn 0 0, .shl 0 0,
    .sneReg 0 0 0, .ldI 0, .jpV0 0, .rnd 0 0, .drw 0 0 0, .skp 0, .sknp 0, .ldVxDT 0, .ldVxK 0, .ldDTVx 0,
    .ldSTVx 0, .addI 0, .ldF 0, .ldB 0, .dump 0, .load 0].map opcodeRow

/-- How many rows of the table a word matches. -/
def rowsMatching (w : Word) : Nat := opcodeTable.countP (·.holds w)

end Sys2Proof
end

