-- ==== Sys2Proof/Config.lean ====
section
/-! DEFINITION. The fixed parameters (00_scope R9), the named parameters the spec leaves open (R10) and the two free values. -/

namespace Sys2Proof

/-- FONT_BASE (20_memory R56, D2): the font stands at 0x000 or at 0x050. -/
inductive FontBase where
  | at000
  | at050
deriving DecidableEq, Repr

/-- ODD_FETCH (20_memory R58, D8): what a fetch at an odd pc does. -/
inductive OddFetch where
  | fault
  | allow
deriving DecidableEq, Repr

/-- FONT_WRITE (20_memory R55, D11): what a write into the font region does. -/
inductive FontWrite where
  | fault
  | write
deriving DecidableEq, Repr

/-- KEY_SELECT (44_keypad_timer R181, D23): which held key `FX0A` stores. -/
inductive KeySelect where
  | lowest
  | any
deriving DecidableEq, Repr

/-- The named parameters of the model that are plain data (00_scope R10).
They stand in `State`, which no instruction lets change them, so that a statement about every state
holds for every value of every parameter (log entry 1). -/
structure Config where
  /-- FONT_BASE. -/
  fontBase : FontBase
  /-- FONT_TABLE: 16 glyphs of 5 bytes (R9 FONT_SIZE). -/
  fontTable : Vector Byte 80
  /-- ODD_FETCH. -/
  oddFetch : OddFetch
  /-- FONT_WRITE. -/
  fontWrite : FontWrite
  /-- KEY_SELECT. -/
  keySelect : KeySelect
  /-- RNG_SEED, the generator state a reset sets (10_state R37, R46). -/
  rngSeed : Nat
deriving DecidableEq, Repr

/-- The first address of the font region (20_memory R56). -/
def FontBase.addr : FontBase → Nat
  | .at000 => 0x000
  | .at050 => 0x050

namespace Config

/-- MEM_SIZE (R9): addresses 0x000 to 0xFFF. -/
abbrev memSize : Nat := 4096

/-- PROGRAM_BASE (R9). -/
abbrev programBase : Nat := 0x200

/-- PROGRAM_MAX (R9): 4096 - 512 bytes. -/
abbrev programMax : Nat := 3584

/-- FONT_SIZE (R9). -/
abbrev fontSize : Nat := 80

/-- FB_WIDTH (R9). -/
abbrev fbWidth : Nat := 64

/-- FB_HEIGHT (R9, 10_state R35): 64 in hi-res mode, else 32. -/
def fbHeight (hiRes : Bool) : Nat := if hiRes then 64 else 32

/-- The default FONT_TABLE, glyphs 0 to F, five rows each (20_memory R56).
PRESUMED: the spec supplies these bytes from general knowledge (93, G5), as a parameter's default (log entry 2). -/
def standardFont : Vector Byte 80 := #v[
  0xF0, 0x90, 0x90, 0x90, 0xF0,  0x20, 0x60, 0x20, 0x20, 0x70,
  0xF0, 0x10, 0xF0, 0x80, 0xF0,  0xF0, 0x10, 0xF0, 0x10, 0xF0,
  0x90, 0x90, 0xF0, 0x10, 0x10,  0xF0, 0x80, 0xF0, 0x10, 0xF0,
  0xF0, 0x80, 0xF0, 0x90, 0xF0,  0xF0, 0x10, 0x20, 0x40, 0x40,
  0xF0, 0x90, 0xF0, 0x90, 0xF0,  0xF0, 0x90, 0xF0, 0x10, 0xF0,
  0xF0, 0x90, 0xF0, 0x90, 0x90,  0xE0, 0x90, 0xE0, 0x90, 0xE0,
  0xF0, 0x80, 0x80, 0x80, 0xF0,  0xE0, 0x90, 0x90, 0x90, 0xE0,
  0xF0, 0x80, 0xF0, 0x80, 0xF0,  0xF0, 0x80, 0xF0, 0x80, 0x80]

/-- The spec's defaults (R10). DESIGN CHOICE: RNG_SEED, which has no default, is 0 here (log entry 3). -/
def default : Config where
  fontBase := .at000
  fontTable := standardFont
  oddFetch := .fault
  fontWrite := .fault
  keySelect := .lowest
  rngSeed := 0

/-- RngNext (00_scope R16): from the generator's state, the byte it gives and its next state.
A FREE VALUE: OPEN in the spec (D25), so it has no body (log entry 3). -/
opaque rngNext : Nat → Byte × Nat

/-- The draw of `keySelect` under KEY_SELECT = any (44_keypad_timer R181), one for each use.
A FREE VALUE: the spec lets the model draw freely (log entry 4). -/
opaque freeKey : Nat → Nat

end Config

end Sys2Proof
end

