-- ==== Sys2Proof/Machine/State.lean ====
section
/-! DEFINITION. The state of the core (10_state R20), its fault record (60_exceptions R202), and reset (R46, 70_reset R240). -/

namespace Sys2Proof.Machine

/-- The faults a cycle can raise, with the info of each (60_exceptions R200).
A raised fault is TAKEN: it ends in a next state that is `halted` and holds the record (R201), so no step of this model
answers the outcome `fault` (log entry 9). -/
inductive Fault where
  /-- Code 1. Raised by decode for every unknown word (30_encoding R82). Safe: the source names this fault. -/
  | unknownOpcode
  /-- Code 2. Raised by `2NNN` when sp = 16. Safe: the spec picks fail fast (D5). -/
  | stackOverflow
  /-- Code 3. Raised by `00EE` when sp = 0. Safe: the spec picks fail fast (D6). -/
  | stackUnderflow
  /-- Code 4. Raised by the fetch at an odd pc under ODD_FETCH = fault. Safe (D8). -/
  | misalignedFetch
  /-- Code 5. Raised by the fetch when pc + 1 > 0xFFF. Safe (D9). -/
  | fetchOutOfRange
  /-- Code 6. Raised by `DXYN`, `FX33`, `FX55`, `FX65` at a data address above 0xFFF. Safe (D10). -/
  | memoryOutOfRange (addr : Nat)
  /-- Code 7. Raised by `FX33`, `FX55` at an address of the font region under FONT_WRITE = fault. Safe (D11). -/
  | fontRegionWrite (addr : Nat)
  /-- Code 8. Raised by `EX9E`, `EXA1` when V[X] > 15. Safe (D24). -/
  | keyIndexOutOfRange (value : Nat)
deriving DecidableEq, Repr

/-- The refusals. No arm of `exec` answers one: every instruction has its meaning. -/
inductive Refusal where
  /-- An instruction without a meaning yet, by the opcode table's mnemonic. Raised by no one. Safe. -/
  | notModelled (mnemonic : String)
deriving DecidableEq, Repr

/-- The fault record (60_exceptions R202). `cause` holds the record's code and info together
(`FaultRecord.code` and `FaultRecord.info` read them), so that no record has an illegal code (10_state R40; log entry 11). -/
structure FaultRecord where
  cause : Fault
  /-- The fetched word, or none for a fault raised before the fetch reads memory. -/
  opcode : Option Word
  /-- The address of the instruction: the pc at the start of the cycle. -/
  address : Word
deriving DecidableEq, Repr

/-- Bytes by address, only those that differ from the reset contents, addresses rising (`Memory.wf`; log entry 7). -/
abbrev Memory := List Host.Cell

/-- The state of the core: the sixteen elements of 10_state R20 under the spec's names, then the model's own two. -/
structure State where
  /-- `memory`. -/
  mem : Memory
  /-- The general registers V[0] to V[15] (R21). -/
  V : Vector Byte 16
  /-- The program counter (R23). -/
  pc : Word
  /-- The index register (R26). -/
  I : Word
  /-- The return stack (R27). -/
  stack : Vector Word 16
  /-- How many entries the stack holds, 0 to 16 (R28). -/
  sp : Fin 17
  /-- Which hex keys are held (R31). -/
  key : Vector Bool 16
  /-- The delay timer (R29). -/
  DT : Byte
  /-- The sound timer (R30). -/
  ST : Byte
  /-- The framebuffer: pixel (x, y) is element y * 64 + x (R32). -/
  fb : List Bool
  /-- The framebuffer's height is 64 when true, 32 when false (R35). -/
  hiResMode : Bool
  /-- A mode flag that changes no instruction (R36). -/
  superChipMode : Bool
  /-- Set by `00E0` and `DXYN`, cleared by the host (R33). -/
  drawFlag : Bool
  /-- The word the last committed cycle fetched (R34). -/
  opcode : Word
  /-- The generator's state (R37; log entry 3). -/
  rng : Nat
  /-- A cycle raised a fault and no reset came since (R38). -/
  halted : Bool
  /-- The record of that fault (R38). -/
  fault : Option FaultRecord
  /-- MODEL's own: the named parameters (00_scope R10; log entry 1). -/
  config : Config
  /-- MODEL's own: how many free key choices were drawn (44_keypad_timer R181; log entry 4). -/
  keyDraws : Nat
deriving DecidableEq, Repr

/-- The state after `reset(hiRes, superChip)` under the parameters `c` (10_state R46, 70_reset R240).
Memory lists nothing: an unlisted byte reads as its reset contents. -/
def State.resetWith (c : Config) (hiRes superChip : Bool) : State where
  mem := []
  V := Vector.replicate 16 0x00
  pc := 0x200
  I := 0x0000
  stack := Vector.replicate 16 0x0000
  sp := 0
  key := Vector.replicate 16 false
  DT := 0x00
  ST := 0x00
  fb := List.replicate (Config.fbWidth * Config.fbHeight hiRes) false
  hiResMode := hiRes
  superChipMode := superChip
  drawFlag := false
  opcode := 0x0000
  rng := c.rngSeed
  halted := false
  fault := none
  config := c
  keyDraws := 0

/-- The machine right after reset: the default parameters and `reset(false, false)`.
DESIGN CHOICE: both reset inputs false, as the spec's test vectors take them (95; log entry 5). -/
def State.reset : State := State.resetWith Config.default false false

end Sys2Proof.Machine
end

