-- ==== Sys2Proof/Machine/Ops.lean ====
section
/-! DEFINITION. The named operations over memory, registers, stack, keypad and generator, the fetch, and taking a fault. -/

namespace Sys2Proof.Machine

/-! ## Memory as a canonical list over its reset contents -/

/-- An address of the font region (20_memory R57). -/
def inFont (c : Config) (a : Nat) : Bool := decide (c.fontBase.addr ≤ a ∧ a < c.fontBase.addr + Config.fontSize)

/-- What an unlisted address reads as: the reset contents (10_state R46). -/
def resetByte (c : Config) (a : Nat) : Byte :=
  if inFont c a then c.fontTable.toList.getD (a - c.fontBase.addr) 0x00 else 0x00

/-- The byte at `a`, `bg` giving the unlisted ones. -/
def Memory.read (bg : Nat → Byte) : Memory → Nat → Byte
  | [], a => bg a
  | (k, b) :: m, a => if a = k then b else Memory.read bg m a

/-- List `v` at `a`, keeping the addresses rising. -/
def Memory.insert (a : Nat) (v : Byte) : Memory → Memory
  | [] => [(a, v)]
  | (k, b) :: m =>
    if a < k then (a, v) :: (k, b) :: m
    else if a = k then (a, v) :: m
    else (k, b) :: Memory.insert a v m

/-- Unlist `a`. -/
def Memory.erase (a : Nat) (m : Memory) : Memory := m.filter fun e => decide (e.1 ≠ a)

/-- Write `v` at `a`: a byte equal to its reset contents is not listed. -/
def Memory.write (bg : Nat → Byte) (m : Memory) (a : Nat) (v : Byte) : Memory :=
  if v = bg a then Memory.erase a m else Memory.insert a v m

/-- The canonical form: addresses strictly rising and inside the 4096 bytes (20_memory R50), no byte equal to its reset contents. -/
abbrev Memory.wf (bg : Nat → Byte) (m : Memory) : Prop :=
  m.Pairwise (fun p q => p.1 < q.1) ∧ ∀ e ∈ m, e.2 ≠ bg e.1 ∧ e.1 < Config.memSize

/-- The byte of memory at `a`. -/
def State.readByte (s : State) (a : Nat) : Byte := s.mem.read (resetByte s.config) a

/-- The byte `v` written at `a`, with no check. -/
def State.writeByte (s : State) (a : Nat) (v : Byte) : State :=
  { s with mem := s.mem.write (resetByte s.config) a v }

/-- Bytes written at `a` and up, with no check: the copy of a program load (70_reset R243). -/
def State.writeBytes (s : State) (a : Nat) : List Byte → State
  | [] => s
  | v :: vs => (s.writeByte a v).writeBytes (a + 1) vs

/-! ## Data accesses with their checks (20_memory R54, R55; the order of 60_exceptions R205) -/

/-- `MemRead(a, 1)` of a data access. -/
def dataRead (s : State) (a : Nat) : Except Fault Byte :=
  if a > 0xFFF then .error (.memoryOutOfRange a) else .ok (s.readByte a)

/-- `MemWrite(a, 1, v)` of a data access: range first, then the font. -/
def dataWrite (s : State) (a : Nat) (v : Byte) : Except Fault State :=
  if a > 0xFFF then .error (.memoryOutOfRange a)
  else if s.config.fontWrite = .fault ∧ inFont s.config a = true then .error (.fontRegionWrite a)
  else .ok (s.writeByte a v)

/-- `n` data reads at ascending addresses from `a`. -/
def dataReads (s : State) (a : Nat) : Nat → Except Fault (List Byte)
  | 0 => .ok []
  | n + 1 =>
    match dataRead s a with
    | .error f => .error f
    | .ok b =>
      match dataReads s (a + 1) n with
      | .error f => .error f
      | .ok bs => .ok (b :: bs)

/-- Data writes of `vs` at ascending addresses from `a`. A fault drops all of them (00_scope R15). -/
def dataWrites (s : State) (a : Nat) : List Byte → Except Fault State
  | [] => .ok s
  | v :: vs =>
    match dataWrite s a v with
    | .error f => .error f
    | .ok t => dataWrites t (a + 1) vs

/-! ## Registers -/

/-- `V[r]` (10_state R21). -/
def State.reg (s : State) (r : Reg) : Byte := s.V[r.val]

/-- `V[r] <- v`. No register is hard-wired (R21). -/
def State.setReg (s : State) (r : Reg) (v : Byte) : State := { s with V := s.V.set r.val v }

/-- V[k], V[k + 1], ... <- the bytes, in that order. -/
def State.setRegs (s : State) (k : Nat) : List Byte → State
  | [] => s
  | b :: bs => { s with V := s.V.setIfInBounds k b }.setRegs (k + 1) bs

/-- V[0] to V[x] inclusive (30_encoding R73: X as a count). -/
def State.regsUpTo (s : State) (x : Reg) : List Byte := s.V.toList.take (x.val + 1)

/-- `pc <- target`. No target is checked when it is written (40_control_flow R108). -/
def State.setPc (s : State) (target : Word) : State := { s with pc := target }

/-- A skip: past the next instruction, mod 2^16 (40_control_flow R103, R110). -/
def State.skipIf (s : State) (c : Bool) : State := if c then s.setPc (s.pc + 2) else s

/-- `I <- v` (10_state R26). -/
def State.setI (s : State) (v : Word) : State := { s with I := v }

/-! ## The return stack (10_state R27, R28) -/

/-- Push: write `stack[sp]`, then increment `sp`; 16 entries are full (40_control_flow R102). -/
def push (s : State) (v : Word) : Except Fault State :=
  if h : s.sp.val < 16 then
    .ok { s with stack := s.stack.set s.sp.val v, sp := ⟨s.sp.val + 1, Nat.succ_lt_succ h⟩ }
  else .error .stackOverflow

/-- Pop: decrement `sp`, then read `stack[sp]`, which keeps its value (40_control_flow R100, 10_state R27). -/
def pop (s : State) : Except Fault (Word × State) :=
  if h : 0 < s.sp.val then
    have hk : s.sp.val - 1 < 16 := by have := s.sp.isLt; omega
    .ok (s.stack[s.sp.val - 1], { s with sp := ⟨s.sp.val - 1, by omega⟩ })
  else .error .stackUnderflow

/-! ## Keypad and generator -/

/-- Hex key `k` is held (10_state R31). -/
def State.keyHeld (s : State) (k : Key) : Bool := s.key[k.val]

/-- The held keys, ascending (44_keypad_timer R185). -/
def State.heldKeys (s : State) : List Key := (List.finRange 16).filter s.keyHeld

/-- `keySelect` on the held keys `k :: ks`, ascending (44_keypad_timer R181): the lowest, or under KEY_SELECT = any
one of them that a free value chooses anew at each use (log entry 4). -/
def keySelect (s : State) (k : Key) (ks : List Key) : Key × State :=
  match s.config.keySelect with
  | .lowest => (k, s)
  | .any => ((k :: ks).getD (Config.freeKey s.keyDraws % (ks.length + 1)) k, { s with keyDraws := s.keyDraws + 1 })

/-- Draw a byte from the generator and advance it (41_alu R132). -/
def drawRandom (s : State) : Byte × State :=
  ((Config.rngNext s.rng).1, { s with rng := (Config.rngNext s.rng).2 })

/-! ## Faults: the record, and taking one (60_exceptions R200 to R202) -/

/-- The code of each fault (R200). -/
def Fault.code : Fault → Nat
  | .unknownOpcode => 1
  | .stackOverflow => 2
  | .stackUnderflow => 3
  | .misalignedFetch => 4
  | .fetchOutOfRange => 5
  | .memoryOutOfRange _ => 6
  | .fontRegionWrite _ => 7
  | .keyIndexOutOfRange _ => 8

/-- The info of each fault: the data address or the key value, or none (R200). -/
def Fault.info : Fault → Option Nat
  | .memoryOutOfRange a => some a
  | .fontRegionWrite a => some a
  | .keyIndexOutOfRange v => some v
  | .unknownOpcode | .stackOverflow | .stackUnderflow | .misalignedFetch | .fetchOutOfRange => none

/-- `code` of a fault record (R202). -/
def FaultRecord.code (r : FaultRecord) : Nat := r.cause.code

/-- `info` of a fault record (R202). -/
def FaultRecord.info (r : FaultRecord) : Option Nat := r.cause.info

/-- Take the fault `f`, raised by the cycle that started in `s`: nothing of the cycle is written, the core halts and
records the fault, the fetched word (if one was fetched) and the address of the instruction (R201, R202).
There is no return from it but a reset (R204, R210). -/
def State.raise (s : State) (f : Fault) (w : Option Word) : State :=
  { s with halted := true, fault := some { cause := f, opcode := w, address := s.pc } }

/-! ## The cycle's fetch and commit (30_encoding R70) -/

/-- The fetch: its two checks, then the big-endian word at pc (20_memory R52, R58, R59). -/
def fetchWord (s : State) : Except Fault Word :=
  if s.config.oddFetch = .fault ∧ s.pc.getLsbD 0 = true then .error .misalignedFetch
  else if s.pc.toNat + 1 > 0xFFF then .error .fetchOutOfRange
  else .ok (bigEndian (s.readByte s.pc.toNat) (s.readByte (s.pc.toNat + 1)))

/-- `s`, or where its next cycle would fetch no word, `s` not halted and with pc at PROGRAM_BASE (log entry 12). -/
def State.readyToFetch (s : State) : State :=
  if s.halted = false ∧ (fetchWord s).isOk = true then s
  else { s with halted := false, fault := none, pc := if (fetchWord s).isOk then s.pc else 0x200 }

/-- The fetch's writes: the word into `opcode`, and pc past the instruction before dispatch. -/
def State.latch (s : State) (w : Word) : State := { s with opcode := w, pc := s.pc + 2 }

/-- One cycle of instruction `i` from the state `s` before the fetch: the fetch's writes, then `body`, the instruction's
own rule; every write is committed when `body` raises nothing, and none when it raises a fault (R70, 00_scope R15). -/
def commit (i : Instr) (body : State → Except Fault State) (s : State) : Host.Outcome State Fault Refusal :=
  match body (s.latch (encode i)) with
  | .ok t => .next t
  | .error f => .next (s.raise f (some (encode i)))

end Sys2Proof.Machine
end

