-- ==== Sys2Proof/Machine/Flags.lean ====
section
/-! DEFINITION. The flag computations: VF as carry, no-borrow, shifted-out bit and collision (10_state R22, R39). -/

namespace Sys2Proof.Machine

/-- A flag as VF holds it: 1 or 0. -/
def flagByte (c : Bool) : Byte := if c then 1 else 0

/-- The carry of `8XY4`: the 9-bit sum exceeds 255 (41_alu R127). -/
def carryFlag (a b : Byte) : Bool := decide (a.toNat + b.toNat > 255)

/-- The flag of a subtraction: the minuend is strictly greater than the subtrahend (41_alu R128, R130, R147). -/
def minuendGreater (minuend subtrahend : Byte) : Bool := decide (minuend.toNat > subtrahend.toNat)

/-- The bit a right shift drops (41_alu R129). -/
def shiftedOutRight (a : Byte) : Bool := a.getLsbD 0

/-- The bit a left shift drops (41_alu R131). -/
def shiftedOutLeft (a : Byte) : Bool := a.getLsbD 7

/-- Write a result to V[X], then its flag to VF: when X = 0xF the flag is what stays (41_alu R120). -/
def State.setResultFlag (s : State) (x : Reg) (result : Byte) (flag : Bool) : State :=
  (s.setReg x result).setReg VF (flagByte flag)

end Sys2Proof.Machine
end

