-- ==== Sys2Proof/Machine/Operands.lean ====
section
/-! DEFINITION. The operand forms (30_encoding R73, 43_index_memory R166). The forms V[X] and V[0] to V[X] are `State.reg`
and `State.regsUpTo`; the byte immediate NN is its own value. -/

namespace Sys2Proof.Machine

/-- The address immediate NNN as a u16: `zext_16(NNN)` (R73). -/
def immAddr (nnn : BitVec 12) : Word := nnn.zeroExtend 16

/-- The byte V[X] as a u16, for a sum with `I` or an address. -/
def zext16 (b : Byte) : Word := b.zeroExtend 16

/-- The address of a data access through `I` at offset `k`, the integer sum without wrap (20_memory R54). -/
def dataAddr (s : State) (k : Nat) : Nat := s.I.toNat + k

/-- The key that the value of V[X] names (44_keypad_timer R180). -/
def keyOperand (s : State) (x : Reg) : Except Fault Key :=
  if h : (s.reg x).toNat < 16 then .ok ⟨(s.reg x).toNat, h⟩
  else .error (.keyIndexOutOfRange (s.reg x).toNat)

/-- The address of the glyph of V[X]'s low nibble (43_index_memory R162). -/
def glyphAddr (s : State) (x : Reg) : Word :=
  BitVec.ofNat 16 (s.config.fontBase.addr + 5 * ((s.reg x).toNat % 16))

/-- The decimal digits of a byte: hundreds, tens, units (43_index_memory R163). -/
def bcdDigits (v : Byte) : List Byte :=
  [BitVec.ofNat 8 (v.toNat / 100), BitVec.ofNat 8 (v.toNat / 10 % 10), BitVec.ofNat 8 (v.toNat % 10)]

/-- FB_HEIGHT of the state (10_state R35). -/
def State.fbHeight (s : State) : Nat := Config.fbHeight s.hiResMode

/-- The column a sprite starts at: V[X] mod 64 (42_display R151). -/
def spriteColumn (s : State) (x : Reg) : Nat := (s.reg x).toNat % Config.fbWidth

/-- The row a sprite starts at: V[Y] mod H (42_display R151). -/
def spriteRow (s : State) (y : Reg) : Nat := (s.reg y).toNat % s.fbHeight

end Sys2Proof.Machine
end

