-- ==== Sys2Proof/Machine/Alu.lean ====
section
/-! DEFINITION. The register and arithmetic instructions (41_alu). -/

namespace Sys2Proof.Machine

/-- `LD Vx, byte` (R121). -/
def execLdByte (x : Reg) (nn : Byte) (s : State) : Host.Outcome State Fault Refusal :=
  commit (.ldByte x nn) (fun s => .ok (s.setReg x nn)) s

/-- `ADD Vx, byte` (R122): no flag. -/
def execAddByte (x : Reg) (nn : Byte) (s : State) : Host.Outcome State Fault Refusal :=
  commit (.addByte x nn) (fun s => .ok (s.setReg x (s.reg x + nn))) s

/-- `LD Vx, Vy` (R123). -/
def execLdReg (x y : Reg) (s : State) : Host.Outcome State Fault Refusal :=
  commit (.ldReg x y) (fun s => .ok (s.setReg x (s.reg y))) s

/-- `OR Vx, Vy` (R124): VF is not written (D17). -/
def execOrReg (x y : Reg) (s : State) : Host.Outcome State Fault Refusal :=
  commit (.orReg x y) (fun s => .ok (s.setReg x (s.reg x ||| s.reg y))) s

/-- `AND Vx, Vy` (R125): VF is not written (D17). -/
def execAndReg (x y : Reg) (s : State) : Host.Outcome State Fault Refusal :=
  commit (.andReg x y) (fun s => .ok (s.setReg x (s.reg x &&& s.reg y))) s

/-- `XOR Vx, Vy` (R126): VF is not written (D17). -/
def execXorReg (x y : Reg) (s : State) : Host.Outcome State Fault Refusal :=
  commit (.xorReg x y) (fun s => .ok (s.setReg x (s.reg x ^^^ s.reg y))) s

/-- `ADD Vx, Vy` (R127): VF is the carry. -/
def execAddReg (x y : Reg) (s : State) : Host.Outcome State Fault Refusal :=
  commit (.addReg x y) (fun s =>
    .ok (s.setResultFlag x (s.reg x + s.reg y) (carryFlag (s.reg x) (s.reg y)))) s

/-- `SUB Vx, Vy` (R128): V[X] minus V[Y]. -/
def execSubReg (x y : Reg) (s : State) : Host.Outcome State Fault Refusal :=
  commit (.subReg x y) (fun s =>
    .ok (s.setResultFlag x (s.reg x - s.reg y) (minuendGreater (s.reg x) (s.reg y)))) s

/-- `SHR Vx, Vy` (R129): V[X] in place; V[Y] is never read. -/
def execShr (x y : Reg) (s : State) : Host.Outcome State Fault Refusal :=
  commit (.shr x y) (fun s =>
    .ok (s.setResultFlag x (s.reg x >>> 1) (shiftedOutRight (s.reg x)))) s

/-- `SUBN Vx, Vy` (R130): V[Y] minus V[X]. -/
def execSubn (x y : Reg) (s : State) : Host.Outcome State Fault Refusal :=
  commit (.subn x y) (fun s =>
    .ok (s.setResultFlag x (s.reg y - s.reg x) (minuendGreater (s.reg y) (s.reg x)))) s

/-- `SHL Vx, Vy` (R131): V[X] in place; V[Y] is never read. -/
def execShl (x y : Reg) (s : State) : Host.Outcome State Fault Refusal :=
  commit (.shl x y) (fun s =>
    .ok (s.setResultFlag x (s.reg x <<< 1) (shiftedOutLeft (s.reg x)))) s

/-- `RND Vx, byte` (R132): the generator advances whatever NN is. -/
def execRnd (x : Reg) (nn : Byte) (s : State) : Host.Outcome State Fault Refusal :=
  commit (.rnd x nn) (fun s => .ok ((drawRandom s).2.setReg x ((drawRandom s).1 &&& nn))) s

end Sys2Proof.Machine
end

