-- ==== Sys2Proof/Machine/ControlFlow.lean ====
section
/-! DEFINITION. The control flow instructions (40_control_flow). In each body pc is already a + 2, as the rules say. -/

namespace Sys2Proof.Machine

/-- `RET` (R100). -/
def execRet (s : State) : Host.Outcome State Fault Refusal :=
  commit .ret (fun s =>
    match pop s with
    | .error f => .error f
    | .ok (target, t) => .ok (t.setPc target)) s

/-- `JP addr` (R101). -/
def execJp (nnn : BitVec 12) (s : State) : Host.Outcome State Fault Refusal :=
  commit (.jp nnn) (fun s => .ok (s.setPc (immAddr nnn))) s

/-- `CALL addr` (R102): pushes pc = a + 2, the return address. -/
def execCall (nnn : BitVec 12) (s : State) : Host.Outcome State Fault Refusal :=
  commit (.call nnn) (fun s =>
    match push s s.pc with
    | .error f => .error f
    | .ok t => .ok (t.setPc (immAddr nnn))) s

/-- `SE Vx, byte` (R103). -/
def execSeByte (x : Reg) (nn : Byte) (s : State) : Host.Outcome State Fault Refusal :=
  commit (.seByte x nn) (fun s => .ok (s.skipIf (decide (s.reg x = nn)))) s

/-- `SNE Vx, byte` (R104). -/
def execSneByte (x : Reg) (nn : Byte) (s : State) : Host.Outcome State Fault Refusal :=
  commit (.sneByte x nn) (fun s => .ok (s.skipIf (decide (s.reg x ≠ nn)))) s

/-- `SE Vx, Vy` (R105): the low nibble changes nothing but the latched word (30_encoding R77). -/
def execSeReg (x y : Reg) (low : BitVec 4) (s : State) : Host.Outcome State Fault Refusal :=
  commit (.seReg x y low) (fun s => .ok (s.skipIf (decide (s.reg x = s.reg y)))) s

/-- `SNE Vx, Vy` (R106): the low nibble changes nothing but the latched word (30_encoding R77). -/
def execSneReg (x y : Reg) (low : BitVec 4) (s : State) : Host.Outcome State Fault Refusal :=
  commit (.sneReg x y low) (fun s => .ok (s.skipIf (decide (s.reg x ≠ s.reg y)))) s

/-- `JP V0, addr` (R107): always V[0], whatever w[11:8] holds. -/
def execJpV0 (nnn : BitVec 12) (s : State) : Host.Outcome State Fault Refusal :=
  commit (.jpV0 nnn) (fun s => .ok (s.setPc (immAddr nnn + zext16 (s.reg 0)))) s

end Sys2Proof.Machine
end

