-- ==== Sys2Proof/Machine/Display.lean ====
section
/-! DEFINITION. The display instructions (42_display) and the sprite blit. -/

namespace Sys2Proof.Machine

/-- Pixel `p` of a framebuffer (10_state R32). -/
def pixel (fb : List Bool) (p : Nat) : Bool := fb.getD p false

/-- The framebuffer index that column `c` of row `r` of a sprite at (x0, y0) falls on, wrapping both ways (R151). -/
def pixelIndex (h x0 y0 r c : Nat) : Nat := (y0 + r) % h * Config.fbWidth + (x0 + c) % Config.fbWidth

/-- The pixels one sprite row's set bits fall on, left to right: bit 7 is the leftmost (R151, D20). -/
def rowPixels (h x0 y0 r : Nat) (row : Byte) : List Nat :=
  ((List.range 8).filter fun c => row.getLsbD (7 - c)).map (pixelIndex h x0 y0 r)

/-- The pixels the set bits of the rows `r`, `r + 1`, ... fall on, in the order of R151's two loops. -/
def spritePixels (h x0 y0 r : Nat) : List Byte → List Nat
  | [] => []
  | row :: rows => rowPixels h x0 y0 r row ++ spritePixels h x0 y0 (r + 1) rows

/-- The loop body of R151 over those pixels: note a lit pixel as a collision, then flip the pixel. -/
def flipPixels (fb : List Bool) (collide : Bool) : List Nat → List Bool × Bool
  | [] => (fb, collide)
  | p :: ps => flipPixels (fb.set p (!pixel fb p)) (collide || pixel fb p) ps

/-- Blit the sprite `rows` at V[X], V[Y]; then VF is the collision flag, and `drawFlag` is set (R151). -/
def State.blit (s : State) (x y : Reg) (rows : List Byte) : State :=
  let r := flipPixels s.fb false (spritePixels s.fbHeight (spriteColumn s x) (spriteRow s y) 0 rows)
  { s with fb := r.1, drawFlag := true }.setReg VF (flagByte r.2)

/-- Every pixel false, the framebuffer's size as it was, and `drawFlag` set (R150). -/
def State.clearScreen (s : State) : State :=
  { s with fb := List.replicate s.fb.length false, drawFlag := true }

/-- `CLS` (R150). -/
def execCls (s : State) : Host.Outcome State Fault Refusal :=
  commit .cls (fun s => .ok s.clearScreen) s

/-- `DRW Vx, Vy, nibble` (R151): all N bytes are read, each address checked, before any pixel changes. -/
def execDrw (x y : Reg) (n : Nat) (s : State) : Host.Outcome State Fault Refusal :=
  commit (.drw x y n) (fun s =>
    match dataReads s (dataAddr s 0) n with
    | .error f => .error f
    | .ok rows => .ok (s.blit x y rows)) s

end Sys2Proof.Machine
end

