-- ==== Sys2Proof/Machine/IndexMemory.lean ====
section
/-! DEFINITION. The index register and memory instructions (43_index_memory). None writes a flag. -/

namespace Sys2Proof.Machine

/-- `LD I, addr` (R160). -/
def execLdI (nnn : BitVec 12) (s : State) : Host.Outcome State Fault Refusal :=
  commit (.ldI nnn) (fun s => .ok (s.setI (immAddr nnn))) s

/-- `ADD I, Vx` (R161): mod 2^16, no flag and no fault. -/
def execAddI (x : Reg) (s : State) : Host.Outcome State Fault Refusal :=
  commit (.addI x) (fun s => .ok (s.setI (s.I + zext16 (s.reg x)))) s

/-- `LD F, Vx` (R162). -/
def execLdF (x : Reg) (s : State) : Host.Outcome State Fault Refusal :=
  commit (.ldF x) (fun s => .ok (s.setI (glyphAddr s x))) s

/-- `LD B, Vx` (R163): I is unchanged. -/
def execLdB (x : Reg) (s : State) : Host.Outcome State Fault Refusal :=
  commit (.ldB x) (fun s => dataWrites s (dataAddr s 0) (bcdDigits (s.reg x))) s

/-- `LD [I], Vx` (R164): I is unchanged (D22). -/
def execDump (x : Reg) (s : State) : Host.Outcome State Fault Refusal :=
  commit (.dump x) (fun s => dataWrites s (dataAddr s 0) (s.regsUpTo x)) s

/-- `LD Vx, [I]` (R165): I is unchanged (D22). -/
def execLoad (x : Reg) (s : State) : Host.Outcome State Fault Refusal :=
  commit (.load x) (fun s =>
    match dataReads s (dataAddr s 0) (x.val + 1) with
    | .error f => .error f
    | .ok bytes => .ok (s.setRegs 0 bytes)) s

end Sys2Proof.Machine
end

