-- ==== Sys2Proof/Machine/KeypadTimer.lean ====
section
/-! DEFINITION. The keypad and timer instructions (44_keypad_timer), and the timer countdown engine (60_exceptions R220). -/

namespace Sys2Proof.Machine

/-- `SKP Vx` (R182). -/
def execSkp (x : Reg) (s : State) : Host.Outcome State Fault Refusal :=
  commit (.skp x) (fun s =>
    match keyOperand s x with
    | .error f => .error f
    | .ok k => .ok (s.skipIf (s.keyHeld k))) s

/-- `SKNP Vx` (R183). -/
def execSknp (x : Reg) (s : State) : Host.Outcome State Fault Refusal :=
  commit (.sknp x) (fun s =>
    match keyOperand s x with
    | .error f => .error f
    | .ok k => .ok (s.skipIf (!s.keyHeld k))) s

/-- `LD Vx, DT` (R184). -/
def execLdVxDT (x : Reg) (s : State) : Host.Outcome State Fault Refusal :=
  commit (.ldVxDT x) (fun s => .ok (s.setReg x s.DT)) s

/-- `LD Vx, K` (R185): with no key held pc goes back to this instruction; a held key is stored at once. -/
def execLdVxK (x : Reg) (s : State) : Host.Outcome State Fault Refusal :=
  commit (.ldVxK x) (fun s =>
    match s.heldKeys with
    | [] => .ok (s.setPc (s.pc - 2))
    | k :: ks => .ok ((keySelect s k ks).2.setReg x (BitVec.ofNat 8 (keySelect s k ks).1.val))) s

/-- `LD DT, Vx` (R186). -/
def execLdDTVx (x : Reg) (s : State) : Host.Outcome State Fault Refusal :=
  commit (.ldDTVx x) (fun s => .ok { s with DT := s.reg x }) s

/-- `LD ST, Vx` (R187). -/
def execLdSTVx (x : Reg) (s : State) : Host.Outcome State Fault Refusal :=
  commit (.ldSTVx x) (fun s => .ok { s with ST := s.reg x }) s

/-- A timer counted down by one, floored at 0 (60_exceptions R220). -/
def countDown (t : Byte) : Byte := if 0 < t.toNat then t - 1 else t

/-- One tick: both timers counted down, unless the core is halted (R203, R220). -/
def State.tick (s : State) : State :=
  if s.halted then s else { s with DT := countDown s.DT, ST := countDown s.ST }

/-- The output `soundActive` (60_exceptions R222). -/
def State.soundActive (s : State) : Bool := decide (0 < s.ST.toNat)

end Sys2Proof.Machine
end

