-- ==== Sys2Proof/Machine/Step.lean ====
section
/-! DEFINITION. One `cycle` request (30_encoding R70), and placing a word where the next cycle fetches it. -/

namespace Sys2Proof.Machine

/-- One `cycle` request: a halted core does not change (60_exceptions R203); else fetch, decode and the instruction's
cycle, a fault of the fetch or of the decoder taken in the order of R205. -/
def step (s : State) : Host.Outcome State Fault Refusal :=
  if s.halted then .next s
  else
    match fetchWord s with
    | .error f => .next (s.raise f none)
    | .ok w =>
      match decode w with
      | none => .next (s.raise .unknownOpcode (some w))
      | some i => exec i s

/-- `s` with a word of the opcode table where the next cycle fetches. Where a cycle of `s` would fetch nothing (halted,
or a pc no word can be fetched at), what stops it is removed: not halted, pc at PROGRAM_BASE (log entry 12). -/
def State.withFetchWord (s : State) (nbits w : Nat) : State :=
  s.readyToFetch.writeBytes s.readyToFetch.pc.toNat (wordBytes (tableWord nbits w))

end Sys2Proof.Machine
end

