-- ==== Sys2Proof/Machine/Requests.lean ====
section
/-! DEFINITION. The host's requests and the outputs (10_state R43 to R45, 70_reset R240 to R244), `step` being the `cycle`
request. The host chooses the order freely, so a run is any list of requests (60_exceptions R221; log entry 8). -/

namespace Sys2Proof.Machine

/-- The requests and input writes of R43. -/
inductive Request where
  /-- `reset(hiRes, superChip)` (70_reset R240). -/
  | reset (hiRes superChip : Bool)
  /-- `load(image)` (70_reset R243). -/
  | load (image : List Byte)
  /-- One fetch-decode-execute step (30_encoding R70). -/
  | cycle
  /-- One timer countdown step (60_exceptions R220). -/
  | tick
  /-- The host's write of the keypad vector (60_exceptions R224). -/
  | keypad (keys : Vector Bool 16)
  /-- `drawFlag <- false` (60_exceptions R225). -/
  | drawFlagClear
  /-- The restore of a whole state (10_state R42; log entry 13). -/
  | restore (snapshot : State)
deriving DecidableEq, Repr

/-- What a `cycle` request answers (R45). -/
inductive CycleAnswer where
  /-- The instruction committed. -/
  | continue
  /-- This cycle raised a fault. -/
  | fault (record : Option FaultRecord)
  /-- The core was already halted. -/
  | halted (record : Option FaultRecord)
deriving DecidableEq, Repr

/-- What a request answers. -/
inductive Reply where
  /-- A request that answers nothing. -/
  | done
  /-- `Ok` of a load. -/
  | ok
  /-- `ProgramTooLarge` of a load (70_reset R244). -/
  | programTooLarge
  /-- The outcome of a cycle. -/
  | cycle (answer : CycleAnswer)
deriving DecidableEq, Repr

/-- The answer of the cycle that took `s` to `t` (R45). -/
def cycleAnswer (s t : State) : CycleAnswer :=
  if s.halted then .halted s.fault
  else if t.halted then .fault t.fault
  else .continue

/-- The `reset` request: allowed in every state, it keeps only the parameters and the count of free draws (R240; log entry 4). -/
def State.resetRequest (s : State) (hiRes superChip : Bool) : State :=
  { State.resetWith s.config hiRes superChip with keyDraws := s.keyDraws }

/-- The `load` request (70_reset R243): too large an image writes nothing. -/
def State.load (s : State) (image : List Byte) : Reply × State :=
  if image.length > Config.programMax then (.programTooLarge, s)
  else (.ok, s.writeBytes Config.programBase image)

/-- One request served: its answer and the next state. -/
def serve (r : Request) (s : State) : Host.Outcome (Reply × State) Fault Refusal :=
  match r with
  | .reset hiRes superChip => .next (.done, s.resetRequest hiRes superChip)
  | .load image => .next (s.load image)
  | .cycle =>
    match step s with
    | .next t => .next (.cycle (cycleAnswer s t), t)
    | .fault f => .fault f
    | .refused u => .refused u
  | .tick => .next (.done, s.tick)
  | .keypad keys => .next (.done, { s with key := keys })
  | .drawFlagClear => .next (.done, { s with drawFlag := false })
  | .restore snapshot => .next (.done, snapshot)

/-- A run: requests served one after another, none concurrent (R44). -/
def serveAll (s : State) : List Request → Host.Outcome State Fault Refusal
  | [] => .next s
  | r :: rs =>
    match serve r s with
    | .next (_, t) => serveAll t rs
    | .fault f => .fault f
    | .refused u => .refused u

/-- The output ports of R43. -/
structure Outputs where
  fb : List Bool
  drawFlag : Bool
  soundActive : Bool
  halted : Bool
  fault : Option FaultRecord
deriving DecidableEq, Repr

/-- What the host reads between requests; it reads the whole state as a snapshot too (R42). -/
def State.outputs (s : State) : Outputs where
  fb := s.fb
  drawFlag := s.drawFlag
  soundActive := s.soundActive
  halted := s.halted
  fault := s.fault

end Sys2Proof.Machine
end

