-- ==== Sys2Proof/Safety.lean ====
section
/-! DEFINITION. The terms claims use: the invariant of the core, the font as reset left it, and what a change may touch. -/

namespace Sys2Proof.Machine

/-- What every run from a reset keeps true. -/
structure State.Inv (s : State) : Prop where
  /-- Memory is in canonical form. -/
  memory : s.mem.wf (resetByte s.config)
  /-- The framebuffer has the length its mode says (10_state R32). -/
  screen : s.fb.length = Config.fbWidth * s.fbHeight
  /-- A fault is recorded exactly while the core is halted (10_state R38). -/
  record : s.halted = s.fault.isSome
  /-- pc is at most what `BNNN` can write (10_state R25). -/
  pcBound : s.pc.toNat ≤ 0x10FE
  /-- A stack entry is zero or the address after a fetched instruction (40_control_flow R102). -/
  stackBound : ∀ k : Fin 16, s.stack[k.val].toNat ≤ 0x1000

/-- The font region reads as a reset leaves it (20_memory R55). -/
def State.FontIntact (s : State) : Prop := ∀ a, inFont s.config a = true → s.readByte a = resetByte s.config a

/-- A request that brings no state of another machine: a restore restores a state of this one (10_state R42). -/
def Request.Legit (c : Config) : Request → Prop
  | .restore snapshot => snapshot.Inv ∧ snapshot.config = c
  | .reset _ _ | .load _ | .cycle | .tick | .keypad _ | .drawFlagClear => True

/-- What one instruction may change; pc and `opcode` are not listed, since every instruction writes them. -/
structure MayChange where
  regs : Reg → Bool := fun _ => false
  index : Bool := false
  stack : Bool := false
  sp : Bool := false
  delay : Bool := false
  sound : Bool := false
  screen : Bool := false
  generator : Bool := false
  keyDraws : Bool := false
  bytes : Nat → Bool := fun _ => false

/-- From `s` to `t` nothing but pc, `opcode` and what `m` lists changed. -/
structure Kept (m : MayChange) (s t : State) : Prop where
  regs : ∀ r, m.regs r = false → t.reg r = s.reg r
  index : m.index = false → t.I = s.I
  stack : m.stack = false → t.stack = s.stack
  sp : m.sp = false → t.sp = s.sp
  delay : m.delay = false → t.DT = s.DT
  sound : m.sound = false → t.ST = s.ST
  screen : m.screen = false → t.fb = s.fb ∧ t.drawFlag = s.drawFlag
  generator : m.generator = false → t.rng = s.rng
  keyDraws : m.keyDraws = false → t.keyDraws = s.keyDraws
  bytes : ∀ a, m.bytes a = false → t.readByte a = s.readByte a
  key : t.key = s.key
  hiResMode : t.hiResMode = s.hiResMode
  superChipMode : t.superChipMode = s.superChipMode
  halted : t.halted = s.halted
  fault : t.fault = s.fault
  config : t.config = s.config

/-- `a` is one of the `n` addresses from `base` up. -/
def within (base n a : Nat) : Bool := decide (base ≤ a ∧ a < base + n)

/-- What the rule of each instruction names as written, from the state before it; the bytes stored to are computed with
the operand form its meaning uses, `dataAddr s 0`. -/
def mayChange (i : Instr) (s : State) : MayChange :=
  match i with
  | .cls => { screen := true }
  | .ret => { sp := true }
  | .call _ => { stack := true, sp := true }
  | .jp _ | .jpV0 _ | .seByte _ _ | .sneByte _ _ | .seReg _ _ _ | .sneReg _ _ _ | .skp _ | .sknp _ => {}
  | .ldByte x _ | .addByte x _ | .ldReg x _ | .orReg x _ | .andReg x _ | .xorReg x _ | .ldVxDT x =>
    { regs := fun r => decide (r = x) }
  | .addReg x _ | .subReg x _ | .shr x _ | .subn x _ | .shl x _ => { regs := fun r => decide (r = x ∨ r = VF) }
  | .rnd x _ => { regs := fun r => decide (r = x), generator := true }
  | .drw _ _ _ => { regs := fun r => decide (r = VF), screen := true }
  | .ldI _ | .addI _ | .ldF _ => { index := true }
  | .ldB _ => { bytes := within (dataAddr s 0) 3 }
  | .dump x => { bytes := within (dataAddr s 0) (x.val + 1) }
  | .load x => { regs := fun r => decide (r ≤ x) }
  | .ldVxK x => { regs := fun r => decide (r = x), keyDraws := true }
  | .ldDTVx _ => { delay := true }
  | .ldSTVx _ => { sound := true }

/-- Every word of the shape `p` decodes to the instruction `mk` makes of its fields. -/
def EncodedBy (p : Word → Prop) (mk : Word → Instr) : Prop := ∀ w, p w → decode w = some (mk w)

/-- The next cycle of `s` fetches the word `w` (20_memory R52, R58, R59). -/
def FetchesWord (s : State) (w : Word) : Prop :=
  s.halted = false ∧ (s.config.oddFetch = .fault → s.pc.toNat % 2 = 0) ∧ s.pc.toNat + 1 ≤ 0xFFF ∧
    w.toNat = (s.readByte s.pc.toNat).toNat * 256 + (s.readByte (s.pc.toNat + 1)).toNat

/-- The next cycle of `s` runs the instruction `i`. -/
def Runs (s : State) (i : Instr) : Prop := ∃ w, FetchesWord s w ∧ decode w = some i

/-- A data write at `a` raises nothing (20_memory R54, R55). -/
def WriteAllowed (s : State) (a : Nat) : Prop := a ≤ 0xFFF ∧ (s.config.fontWrite = .fault → inFont s.config a = false)

/-- Of the `n` writes from `a` up, the one at offset `k` is the first that raises a fault. -/
def FirstForbidden (s : State) (a n k : Nat) : Prop :=
  k < n ∧ (∀ j < k, WriteAllowed s (a + j)) ∧ ¬ WriteAllowed s (a + k)

/-- The fault of a forbidden write at `a`: range before font (60_exceptions R205). -/
def writeFault (a : Nat) : Fault := if a > 0xFFF then .memoryOutOfRange a else .fontRegionWrite a

/-- Pixel (px, py) is under a set bit of the N-row sprite at I drawn at V[X], V[Y] (42_display R151). -/
def SpriteCovers (s : State) (x y : Reg) (n px py : Nat) : Prop :=
  ∃ r < n, ∃ c < 8, (s.readByte (s.I.toNat + r)).getLsbD (7 - c) = true ∧
    px = ((s.reg x).toNat % 64 + c) % 64 ∧ py = ((s.reg y).toNat % s.fbHeight + r) % s.fbHeight

/-- pc after a committed cycle of `i` from `s` (10_state R24). -/
def pcAfter (i : Instr) (s : State) : Word :=
  match i with
  | .ret => s.stack.toList.getD (s.sp.val - 1) 0
  | .jp nnn | .call nnn => BitVec.ofNat 16 nnn.toNat
  | .seByte x nn => if s.reg x = nn then s.pc + 4 else s.pc + 2
  | .sneByte x nn => if s.reg x = nn then s.pc + 2 else s.pc + 4
  | .seReg x y _ => if s.reg x = s.reg y then s.pc + 4 else s.pc + 2
  | .sneReg x y _ => if s.reg x = s.reg y then s.pc + 2 else s.pc + 4
  | .skp x => if s.key.toList.getD (s.reg x).toNat false then s.pc + 4 else s.pc + 2
  | .sknp x => if s.key.toList.getD (s.reg x).toNat false then s.pc + 2 else s.pc + 4
  | .jpV0 nnn => BitVec.ofNat 16 (nnn.toNat + (s.reg 0).toNat)
  | .ldVxK _ => if s.heldKeys = [] then s.pc else s.pc + 2
  | .cls | .ldByte _ _ | .addByte _ _ | .ldReg _ _ | .orReg _ _ | .andReg _ _ | .xorReg _ _ => s.pc + 2
  | .addReg _ _ | .subReg _ _ | .shr _ _ | .subn _ _ | .shl _ _ | .ldI _ | .rnd _ _ | .drw _ _ _ => s.pc + 2
  | .ldVxDT _ | .ldDTVx _ | .ldSTVx _ | .addI _ | .ldF _ | .ldB _ | .dump _ | .load _ => s.pc + 2

/-- `s` with the elements no instruction reads set to fixed values: `opcode` (10_state R34), ST (R30), `drawFlag` (R39)
and `superChipMode` (R36). -/
def State.unread (s : State) : State :=
  { s with opcode := 0, ST := 0, drawFlag := false, superChipMode := false }

/-- The instructions that write V[v] (10_state R21, R22). -/
def WritesReg (i : Instr) (v : Reg) : Prop :=
  match i with
  | .ldByte x _ | .addByte x _ | .ldReg x _ | .orReg x _ | .andReg x _ | .xorReg x _ | .rnd x _ | .ldVxDT x | .ldVxK x => v = x
  | .addReg x _ | .subReg x _ | .shr x _ | .subn x _ | .shl x _ => v = x ∨ v = VF
  | .drw _ _ _ => v = VF
  | .load x => v ≤ x
  | .cls | .ret | .jp _ | .call _ | .seByte _ _ | .sneByte _ _ | .seReg _ _ _ | .sneReg _ _ _ | .ldI _ | .jpV0 _ => False
  | .skp _ | .sknp _ | .ldDTVx _ | .ldSTVx _ | .addI _ | .ldF _ | .ldB _ | .dump _ => False

/-- The cycle of `i` completes with VF = `flag` and every other register as it was (41_alu R120). -/
def FlagStays (i : Instr) (s : State) (flag : Byte) : Prop :=
  ∃ t, exec i s = .next t ∧ t.reg VF = flag ∧ ∀ v, v ≠ VF → t.reg v = s.reg v

/-- The state an outcome goes on with. -/
def nextState : Host.Outcome State Fault Refusal → Option State
  | .next t => some t
  | .fault _ => none
  | .refused _ => none

end Sys2Proof.Machine
end

