-- ==== Sys2Proof/Certificates/Slice0/Obligations.lean ====
section
/-! DEFINITION. The statements for the provers. A state equality `exec i s = .next t` says the completion, the result and
the frame at once; `s.latch w` is `s` after the fetch's writes, `opcode := w` and `pc := s.pc + 2`. -/

open Sys2Proof Sys2Proof.Machine

/-! ## Encoding -/

/-- The words the source shows, and words of the other families written out bit by bit, decode as the spec says. -/
def Obligations.WordsOfTheSpecDecode : Prop :=
  decode 0x6A02#16 = some (.ldByte 0xA 0x02) ∧ decode 0x00E0#16 = some .cls ∧ decode 0x2200#16 = some (.call 0x200) ∧
  decode 0x00EE#16 = some .ret ∧ decode 0b1000_0001_0010_0110#16 = some (.shr 1 2) ∧
  decode 0b1000_0001_0010_1110#16 = some (.shl 1 2) ∧ decode 0b1101_0001_0010_0101#16 = some (.drw 1 2 5) ∧
  decode 0b1111_0010_0001_1110#16 = some (.addI 2) ∧ decode 0b1110_0001_1001_1110#16 = some (.skp 1) ∧
  decode 0x0000#16 = none ∧ decode 0x8008#16 = none ∧ decode 0xF0FF#16 = none

/-- No operand bit is dropped: the decoder reads back every well-formed instruction from its word. -/
def Obligations.DecodeReadsBackEncode : Prop :=
  ∀ i : Instr, i.wellFormed = true → decode (encode i) = some i

/-- No word has two meanings and no bit of an instruction word is ignored by the syntax: an instruction the decoder
reads from `w` is well formed and its word is `w`. -/
def Obligations.EncodeGivesBackTheWord : Prop :=
  ∀ (w : Word) (i : Instr), decode w = some i → i.wellFormed = true ∧ encode i = w

/-- The unknown words, by their nibbles as numbers: the list the spec derives in R82 (its decision D14 for family 0). -/
def Obligations.UnknownWordsAreTheListedOnes : Prop :=
  ∀ w : Word, decode w = none ↔
    (w.toNat / 4096 = 0x0 ∧ w ≠ 0x00E0#16 ∧ w ≠ 0x00EE#16) ∨
    (w.toNat / 4096 = 0x8 ∧ w.toNat % 16 ∈ [0x8, 0x9, 0xA, 0xB, 0xC, 0xD, 0xF]) ∨
    (w.toNat / 4096 = 0xE ∧ w.toNat % 256 ∉ [0x9E, 0xA1]) ∨
    (w.toNat / 4096 = 0xF ∧ w.toNat % 256 ∉ [0x07, 0x0A, 0x15, 0x18, 0x1E, 0x29, 0x33, 0x55, 0x65])

/-- Exactly one row of the opcode table matches an instruction word, the row of its instruction, and none matches an
unknown word: what the spec derives in R88. -/
def Obligations.OneTableRowPerInstructionWord : Prop :=
  ∀ w : Word, match decode w with
    | some i => (opcodeRow i).holds w = true ∧ opcodeRow i ∈ opcodeTable ∧ rowsMatching w = 1
    | none => rowsMatching w = 0

/-! ## The cycle -/

/-- The cycle's pseudocode (R70, with the spec's own decisions D8, D9, D12 and D13): halted, the two fetch faults, an unknown word, or the instruction's own cycle. -/
def Obligations.StepFollowsTheCycle : Prop :=
  ∀ s : State,
    (s.halted = true → step s = .next s) ∧
    (s.halted = false → s.config.oddFetch = .fault → s.pc.toNat % 2 = 1 → step s = .next (s.raise .misalignedFetch none)) ∧
    (s.halted = false → (s.config.oddFetch = .fault → s.pc.toNat % 2 = 0) → 0xFFF < s.pc.toNat + 1 →
      step s = .next (s.raise .fetchOutOfRange none)) ∧
    (∀ w, FetchesWord s w → decode w = none → step s = .next (s.raise .unknownOpcode (some w))) ∧
    (∀ w i, FetchesWord s w → decode w = some i → step s = exec i s)

/-- A cycle whose word decodes to a well-formed instruction is that instruction's `exec`, with nothing around it. -/
def Obligations.StepRunsTheDecodedInstruction : Prop :=
  ∀ (s : State) (i : Instr), i.wellFormed = true → s.halted = false → (s.config.oddFetch = .fault → s.pc.toNat % 2 = 0) →
    s.pc.toNat + 1 ≤ 0xFFF → (∃ rest, decodeBytes [s.readByte s.pc.toNat, s.readByte (s.pc.toNat + 1)] = .instr i rest) →
    step s = exec i s

/-- A word placed by `withFetchWord` is what the next step runs, in every state (the model's own convention, log entry 12). -/
def Obligations.PlacedWordIsRunNext : Prop :=
  ∀ (s : State) (nbits w : Nat) (i : Instr), decodeTableWord nbits w = some i →
    step (s.withFetchWord nbits w) = exec i (s.withFetchWord nbits w)

/-- Every cycle of every state answers a next state: no instruction is refused or stops the machine. -/
def Obligations.EveryCycleAnswersANextState : Prop :=
  (∀ s : State, ∃ t, step s = .next t) ∧ ∀ (i : Instr) (s : State), ∃ t, exec i s = .next t

/-! ## Control flow -/

/-- `RET` (R100). The fault on an empty stack is the spec's own decision D6. -/
def Obligations.ReturnPopsThePc : Prop :=
  decode 0x00EE#16 = some .ret ∧
  (∀ s : State, s.sp.val = 0 → exec .ret s = .next (s.raise .stackUnderflow (some 0x00EE#16))) ∧
  ∀ (s : State) (k : Fin 16), s.sp.val = k.val + 1 →
    exec .ret s = .next { s.latch 0x00EE#16 with sp := k.castSucc, pc := s.stack[k.val] }

/-- `JP addr` (R101) and `JP V0, addr` (R107). -/
def Obligations.JumpsWriteThePc : Prop :=
  EncodedBy (family · = 0x1) (fun w => .jp (fieldNNN w)) ∧ EncodedBy (family · = 0xB) (fun w => .jpV0 (fieldNNN w)) ∧
  ∀ (nnn : BitVec 12) (s : State),
    exec (.jp nnn) s = .next { s.latch (encode (.jp nnn)) with pc := BitVec.ofNat 16 nnn.toNat } ∧
    exec (.jpV0 nnn) s =
      .next { s.latch (encode (.jpV0 nnn)) with pc := BitVec.ofNat 16 (nnn.toNat + (s.reg 0).toNat) }

/-- `CALL addr` (R102). The fault on a full stack is the spec's own decision D5. -/
def Obligations.CallPushesTheReturnAddress : Prop :=
  EncodedBy (family · = 0x2) (fun w => .call (fieldNNN w)) ∧
  (∀ (nnn : BitVec 12) (s : State), s.sp.val = 16 →
    exec (.call nnn) s = .next (s.raise .stackOverflow (some (encode (.call nnn))))) ∧
  ∀ (nnn : BitVec 12) (s : State) (k : Fin 16), s.sp = k.castSucc →
    exec (.call nnn) s = .next { s.latch (encode (.call nnn)) with
      stack := s.stack.set k.val (s.pc + 2), sp := k.succ, pc := BitVec.ofNat 16 nnn.toNat }

/-- `SE` and `SNE` on a literal (R103, R104). -/
def Obligations.SkipsOnALiteral : Prop :=
  EncodedBy (family · = 0x3) (fun w => .seByte (fieldX w) (fieldNN w)) ∧
  EncodedBy (family · = 0x4) (fun w => .sneByte (fieldX w) (fieldNN w)) ∧
  ∀ (x : Reg) (nn : Byte) (s : State),
    exec (.seByte x nn) s = .next { s.latch (encode (.seByte x nn)) with
      pc := if (s.reg x).toNat = nn.toNat then s.pc + 4 else s.pc + 2 } ∧
    exec (.sneByte x nn) s = .next { s.latch (encode (.sneByte x nn)) with
      pc := if (s.reg x).toNat = nn.toNat then s.pc + 2 else s.pc + 4 }

/-- `SE` and `SNE` on registers, whatever the low nibble (R105, R106). That it is ignored is the spec's own decision D15. -/
def Obligations.SkipsOnRegisters : Prop :=
  EncodedBy (family · = 0x5) (fun w => .seReg (fieldX w) (fieldY w) (fieldLow w)) ∧
  EncodedBy (family · = 0x9) (fun w => .sneReg (fieldX w) (fieldY w) (fieldLow w)) ∧
  ∀ (x y : Reg) (low : BitVec 4) (s : State),
    exec (.seReg x y low) s = .next { s.latch (encode (.seReg x y low)) with
      pc := if (s.reg x).toNat = (s.reg y).toNat then s.pc + 4 else s.pc + 2 } ∧
    exec (.sneReg x y low) s = .next { s.latch (encode (.sneReg x y low)) with
      pc := if (s.reg x).toNat = (s.reg y).toNat then s.pc + 2 else s.pc + 4 }

/-- A call and then, from any state with the call's stack, a return: back after the call, with as many entries as before
and every older entry kept. The spec derives it in R109. -/
def Obligations.ReturnUndoesCall : Prop :=
  ∀ (nnn : BitVec 12) (s t u : State), s.sp.val < 16 → exec (.call nnn) s = .next t → u.stack = t.stack → u.sp = t.sp →
    ∃ v, exec .ret u = .next v ∧ v.halted = u.halted ∧ v.pc = s.pc + 2 ∧ v.sp = s.sp ∧
      ∀ k : Fin 16, k.val < s.sp.val → v.stack[k.val] = s.stack[k.val]

/-- pc after every committed cycle is the table the spec derives in R24. -/
def Obligations.PcAfterACommittedCycle : Prop :=
  ∀ (i : Instr) (s t : State), exec i s = .next t → t.halted = false → t.pc = pcAfter i s

/-! ## Registers and arithmetic -/

/-- `LD Vx, byte` (R121). -/
def Obligations.SetRegisterToLiteral : Prop :=
  EncodedBy (family · = 0x6) (fun w => .ldByte (fieldX w) (fieldNN w)) ∧
  ∀ (x : Reg) (nn : Byte) (s : State),
    exec (.ldByte x nn) s = .next { s.latch (encode (.ldByte x nn)) with V := s.V.set x.val nn }

/-- `ADD Vx, byte` (R122). -/
def Obligations.AddLiteralWithoutFlag : Prop :=
  EncodedBy (family · = 0x7) (fun w => .addByte (fieldX w) (fieldNN w)) ∧
  ∀ (x : Reg) (nn : Byte) (s : State),
    exec (.addByte x nn) s = .next { s.latch (encode (.addByte x nn)) with
      V := s.V.set x.val (BitVec.ofNat 8 (((s.reg x).toNat + nn.toNat) % 256)) }

/-- `LD Vx, Vy`, `OR`, `AND`, `XOR` (R123 to R126): VF is written only as a destination, which for the
bitwise three is the spec's own decision D17. -/
def Obligations.CopyAndBitwiseWriteNoFlag : Prop :=
  EncodedBy (fun w => family w = 0x8 ∧ fieldN w = 0x0) (fun w => .ldReg (fieldX w) (fieldY w)) ∧
  EncodedBy (fun w => family w = 0x8 ∧ fieldN w = 0x1) (fun w => .orReg (fieldX w) (fieldY w)) ∧
  EncodedBy (fun w => family w = 0x8 ∧ fieldN w = 0x2) (fun w => .andReg (fieldX w) (fieldY w)) ∧
  EncodedBy (fun w => family w = 0x8 ∧ fieldN w = 0x3) (fun w => .xorReg (fieldX w) (fieldY w)) ∧
  ∀ (x y : Reg) (s : State),
    exec (.ldReg x y) s = .next { s.latch (encode (.ldReg x y)) with V := s.V.set x.val s.V[y.val] } ∧
    exec (.orReg x y) s = .next { s.latch (encode (.orReg x y)) with V := s.V.set x.val (s.V[x.val] ||| s.V[y.val]) } ∧
    exec (.andReg x y) s = .next { s.latch (encode (.andReg x y)) with V := s.V.set x.val (s.V[x.val] &&& s.V[y.val]) } ∧
    exec (.xorReg x y) s = .next { s.latch (encode (.xorReg x y)) with V := s.V.set x.val (s.V[x.val] ^^^ s.V[y.val]) }

/-- `ADD Vx, Vy` (R127). That the flag is written after the result, so that it stays at X = F, is R120, the spec's own
decision D16 (log entry 6). -/
def Obligations.AddWritesResultThenCarry : Prop :=
  EncodedBy (fun w => family w = 0x8 ∧ fieldN w = 0x4) (fun w => .addReg (fieldX w) (fieldY w)) ∧
  ∀ (x y : Reg) (s : State) (a b : Nat), s.V[x.val].toNat = a → s.V[y.val].toNat = b →
    exec (.addReg x y) s = .next { s.latch (encode (.addReg x y)) with
      V := (s.V.set x.val (BitVec.ofNat 8 ((a + b) % 256))).set 15 (if a + b > 255 then 1 else 0) }

/-- `SUB Vx, Vy` (R128) and `SUBN Vx, Vy` (R130): VF = 1 iff the minuend is strictly greater. That the
flag is written after the result, so that it stays at X = F, is R120, the spec's own decision D16 (log entry 6). -/
def Obligations.SubtractWritesResultThenStrictFlag : Prop :=
  EncodedBy (fun w => family w = 0x8 ∧ fieldN w = 0x5) (fun w => .subReg (fieldX w) (fieldY w)) ∧
  EncodedBy (fun w => family w = 0x8 ∧ fieldN w = 0x7) (fun w => .subn (fieldX w) (fieldY w)) ∧
  ∀ (x y : Reg) (s : State) (a b : Nat), s.V[x.val].toNat = a → s.V[y.val].toNat = b →
    exec (.subReg x y) s = .next { s.latch (encode (.subReg x y)) with
      V := (s.V.set x.val (BitVec.ofInt 8 ((a : Int) - b))).set 15 (if a > b then 1 else 0) } ∧
    exec (.subn x y) s = .next { s.latch (encode (.subn x y)) with
      V := (s.V.set x.val (BitVec.ofInt 8 ((b : Int) - a))).set 15 (if b > a then 1 else 0) }

/-- `SHR` (R129) and `SHL` (R131): V[X] in place, V[Y] never read, in every mode. That the flag is
written after the result, so that it stays at X = F, is R120, the spec's own decision D16 (log entry 6). -/
def Obligations.ShiftsWriteResultThenDroppedBit : Prop :=
  EncodedBy (fun w => family w = 0x8 ∧ fieldN w = 0x6) (fun w => .shr (fieldX w) (fieldY w)) ∧
  EncodedBy (fun w => family w = 0x8 ∧ fieldN w = 0xE) (fun w => .shl (fieldX w) (fieldY w)) ∧
  ∀ (x y : Reg) (s : State) (a : Nat), s.V[x.val].toNat = a →
    exec (.shr x y) s = .next { s.latch (encode (.shr x y)) with
      V := (s.V.set x.val (BitVec.ofNat 8 (a / 2))).set 15 (BitVec.ofNat 8 (a % 2)) } ∧
    exec (.shl x y) s = .next { s.latch (encode (.shl x y)) with
      V := (s.V.set x.val (BitVec.ofNat 8 (2 * a % 256))).set 15 (BitVec.ofNat 8 (a / 128)) }

/-- `RND Vx, byte` (R132), for every generator: `Config.rngNext` is a free value (the spec's decision D25, log
entry 3). -/
def Obligations.RandomMasksAndAdvances : Prop :=
  EncodedBy (family · = 0xC) (fun w => .rnd (fieldX w) (fieldNN w)) ∧
  ∀ (x : Reg) (nn : Byte) (s : State),
    exec (.rnd x nn) s = .next { s.latch (encode (.rnd x nn)) with
      rng := (Config.rngNext s.rng).2, V := s.V.set x.val ((Config.rngNext s.rng).1 &&& nn) }

/-- The five result-and-flag instructions at X = 0xF: VF ends as the instruction's flag, computed from the operands read
before any write (at Y = 0xF the old VF), and the result is lost (R120, the spec's own decision D16, log entry 6). -/
def Obligations.FlagWinsWhenVFIsTheDestination : Prop :=
  ∀ (y : Reg) (s : State) (a b : Nat), (s.reg VF).toNat = a → (s.reg y).toNat = b →
    FlagStays (.addReg VF y) s (if a + b > 255 then 1 else 0) ∧ FlagStays (.subReg VF y) s (if a > b then 1 else 0) ∧
    FlagStays (.subn VF y) s (if b > a then 1 else 0) ∧ FlagStays (.shr VF y) s (BitVec.ofNat 8 (a % 2)) ∧
    FlagStays (.shl VF y) s (BitVec.ofNat 8 (a / 128))

/-! ## Display -/

/-- `CLS` (R150). That `drawFlag` is set is the spec's own decision D21. -/
def Obligations.ClearScreenDarkensEveryPixel : Prop :=
  decode 0x00E0#16 = some .cls ∧
  ∀ s : State, ∃ t, exec .cls s = .next t ∧ t = { s.latch 0x00E0#16 with fb := t.fb, drawFlag := true } ∧
    t.fb.length = s.fb.length ∧ ∀ p < s.fb.length, t.fb[p]? = some false

/-- `DRW` (R151): every pixel under a set sprite bit is flipped, every other kept, VF tells a pixel turned off, both axes wrap.
The spec's own decisions: VF cleared D18, N = 0 D19, bit order D20, `drawFlag` D21, the address fault D10. -/
def Obligations.DrawFlipsThePixelsUnderTheSprite : Prop :=
  EncodedBy (family · = 0xD) (fun w => .drw (fieldX w) (fieldY w) (fieldN w)) ∧
  (∀ (x y : Reg) (n : Nat) (s : State), 0 < n → 0x1000 < s.I.toNat + n →
    exec (.drw x y n) s = .next (s.raise (.memoryOutOfRange (max s.I.toNat 0x1000)) (some (encode (.drw x y n))))) ∧
  ∀ (x y : Reg) (n : Nat) (s : State), n ≤ 15 → s.fb.length = 64 * s.fbHeight → n = 0 ∨ s.I.toNat + n ≤ 0x1000 →
    ∃ t, exec (.drw x y n) s = .next t ∧
      t = { s.latch (encode (.drw x y n)) with fb := t.fb, V := s.V.set 15 t.V[15], drawFlag := true } ∧
      t.fb.length = s.fb.length ∧
      (∀ px < 64, ∀ py < s.fbHeight,
        (pixel t.fb (py * 64 + px) = true ↔ ¬ (pixel s.fb (py * 64 + px) = true ↔ SpriteCovers s x y n px py))) ∧
      (t.V[15] = 1 ∨ t.V[15] = 0) ∧
      (t.V[15] = 1 ↔ ∃ px < 64, ∃ py < s.fbHeight, pixel s.fb (py * 64 + px) = true ∧ pixel t.fb (py * 64 + px) = false)

/-- The XOR inverse (R152): the same sprite at the same place, drawn from a state that kept the screen, I, the sprite bytes
and the position, restores the framebuffer; the second VF is 1 iff a set sprite bit fell on a dark pixel, as the spec derives. -/
def Obligations.DrawTwiceRestoresTheScreen : Prop :=
  ∀ (x y x' y' : Reg) (n : Nat) (s t u v : State), n ≤ 15 → s.fb.length = 64 * s.fbHeight →
    n = 0 ∨ s.I.toNat + n ≤ 0x1000 → exec (.drw x y n) s = .next t →
    u.fb = t.fb → u.I = s.I → u.reg x' = s.reg x → u.reg y' = s.reg y → u.hiResMode = s.hiResMode →
    (∀ k < n, u.readByte (u.I.toNat + k) = s.readByte (s.I.toNat + k)) →
    exec (.drw x' y' n) u = .next v →
    v.fb = s.fb ∧
      (v.reg VF = 1 ↔ ∃ px < 64, ∃ py < s.fbHeight, SpriteCovers s x y n px py ∧ pixel s.fb (py * 64 + px) = false)

/-! ## Index register and memory -/

/-- `LD I, addr` (R160). -/
def Obligations.SetIndexToLiteral : Prop :=
  EncodedBy (family · = 0xA) (fun w => .ldI (fieldNNN w)) ∧
  ∀ (nnn : BitVec 12) (s : State),
    exec (.ldI nnn) s = .next { s.latch (encode (.ldI nnn)) with I := BitVec.ofNat 16 nnn.toNat }

/-- `ADD I, Vx` (R161). -/
def Obligations.AddToIndexWraps : Prop :=
  EncodedBy (fun w => family w = 0xF ∧ (fieldNN w).toNat = 0x1E) (fun w => .addI (fieldX w)) ∧
  ∀ (x : Reg) (s : State), exec (.addI x) s = .next { s.latch (encode (.addI x)) with
    I := BitVec.ofNat 16 ((s.I.toNat + (s.reg x).toNat) % 65536) }

/-- `LD F, Vx` (R162), for both values of FONT_BASE, which is a parameter by the spec's own decision D2. -/
def Obligations.PointIndexAtGlyph : Prop :=
  EncodedBy (fun w => family w = 0xF ∧ (fieldNN w).toNat = 0x29) (fun w => .ldF (fieldX w)) ∧
  ∀ (x : Reg) (s : State), exec (.ldF x) s = .next { s.latch (encode (.ldF x)) with
    I := (match s.config.fontBase with | .at000 => 0x000 | .at050 => 0x050)
      + 5 * BitVec.ofNat 16 ((s.reg x).toNat % 16) }

/-- `LD B, Vx` (R163): the three digits at I, or the first fault and no byte written (the spec's own decisions D10, D11). -/
def Obligations.StoreDecimalDigits : Prop :=
  EncodedBy (fun w => family w = 0xF ∧ (fieldNN w).toNat = 0x33) (fun w => .ldB (fieldX w)) ∧
  (∀ (x : Reg) (s : State) (k : Nat), FirstForbidden s (dataAddr s 0) 3 k →
    exec (.ldB x) s = .next (s.raise (writeFault (dataAddr s k)) (some (encode (.ldB x))))) ∧
  ∀ (x : Reg) (s : State) (v : Nat), s.V[x.val].toNat = v → (∀ k < 3, WriteAllowed s (dataAddr s k)) →
    ∃ t, exec (.ldB x) s = .next t ∧ t = { s.latch (encode (.ldB x)) with mem := t.mem } ∧
      (t.readByte (dataAddr s 0)).toNat = v / 100 ∧ (t.readByte (dataAddr s 1)).toNat = v / 10 % 10 ∧
      (t.readByte (dataAddr s 2)).toNat = v % 10 ∧
      ∀ a, (∀ k < 3, a ≠ dataAddr s k) → t.readByte a = s.readByte a

/-- `LD [I], Vx` (R164): V[0] to V[X] at I and up, I unchanged (the spec's own decision D22), or the first fault and
no byte written (D10, D11). -/
def Obligations.DumpRegisters : Prop :=
  EncodedBy (fun w => family w = 0xF ∧ (fieldNN w).toNat = 0x55) (fun w => .dump (fieldX w)) ∧
  (∀ (x : Reg) (s : State) (k : Nat), FirstForbidden s (dataAddr s 0) (x.val + 1) k →
    exec (.dump x) s = .next (s.raise (writeFault (dataAddr s k)) (some (encode (.dump x))))) ∧
  ∀ (x : Reg) (s : State), (∀ k ≤ x.val, WriteAllowed s (dataAddr s k)) →
    ∃ t, exec (.dump x) s = .next t ∧ t = { s.latch (encode (.dump x)) with mem := t.mem } ∧
      (∀ r ≤ x, t.readByte (dataAddr s r.val) = s.V[r.val]) ∧
      ∀ a, (∀ k ≤ x.val, a ≠ dataAddr s k) → t.readByte a = s.readByte a

/-- `LD Vx, [I]` (R165): the bytes at I and up into V[0] to V[X], I unchanged (the spec's own decision D22), or the
first fault and no register written (D10). -/
def Obligations.LoadRegisters : Prop :=
  EncodedBy (fun w => family w = 0xF ∧ (fieldNN w).toNat = 0x65) (fun w => .load (fieldX w)) ∧
  (∀ (x : Reg) (s : State), 0xFFF < s.I.toNat + x.val →
    exec (.load x) s = .next (s.raise (.memoryOutOfRange (max s.I.toNat 0x1000)) (some (encode (.load x))))) ∧
  ∀ (x : Reg) (s : State), s.I.toNat + x.val ≤ 0xFFF →
    ∃ t, exec (.load x) s = .next t ∧ t = { s.latch (encode (.load x)) with V := t.V } ∧
      (∀ r ≤ x, t.V[r.val] = s.readByte (s.I.toNat + r.val)) ∧ ∀ r, x < r → t.V[r.val] = s.V[r.val]

/-- A dump and then a load of as many registers through the same I gives the registers back (from R164 and R165). -/
def Obligations.LoadReadsBackDump : Prop :=
  ∀ (x : Reg) (s t u v : State), exec (.dump x) s = .next t → t.halted = false →
    u.mem = t.mem → u.config = t.config → u.I = s.I → exec (.load x) u = .next v →
    ∀ r ≤ x, v.reg r = s.reg r

/-- A word a dump stores where the next cycle fetches is what that cycle fetches: the first byte is the high half
(R52, R64, R248). -/
def Obligations.StoredWordIsFetchedNext : Prop :=
  ∀ (x : Reg) (s t : State) (k : Nat), exec (.dump x) s = .next t → t.halted = false →
    k + 1 ≤ x.val → t.pc.toNat = dataAddr s k → t.pc.toNat % 2 = 0 →
    ∃ w : Word, FetchesWord t w ∧ w.toNat = (s.V.toList.getD k 0).toNat * 256 + (s.V.toList.getD (k + 1) 0).toNat

/-- Two memories in canonical form that read alike at every address are the same data (log entry 7). -/
def Obligations.CanonicalMemoriesThatReadAlikeAreEqual : Prop :=
  ∀ (bg : Nat → Byte) (m n : Memory), m.wf bg → n.wf bg → (∀ a, m.read bg a = n.read bg a) → m = n

/-! ## Keypad and timers -/

/-- `SKP` and `SKNP` (R182, R183). The fault on a value above 15 is the spec's own decision D24. -/
def Obligations.SkipsOnAKey : Prop :=
  EncodedBy (fun w => family w = 0xE ∧ (fieldNN w).toNat = 0x9E) (fun w => .skp (fieldX w)) ∧
  EncodedBy (fun w => family w = 0xE ∧ (fieldNN w).toNat = 0xA1) (fun w => .sknp (fieldX w)) ∧
  (∀ (x : Reg) (s : State), 15 < (s.reg x).toNat →
    exec (.skp x) s = .next (s.raise (.keyIndexOutOfRange (s.reg x).toNat) (some (encode (.skp x)))) ∧
    exec (.sknp x) s = .next (s.raise (.keyIndexOutOfRange (s.reg x).toNat) (some (encode (.sknp x))))) ∧
  ∀ (x : Reg) (s : State) (k : Key), (s.reg x).toNat = k.val →
    exec (.skp x) s = .next { s.latch (encode (.skp x)) with pc := if s.key[k.val] then s.pc + 4 else s.pc + 2 } ∧
    exec (.sknp x) s = .next { s.latch (encode (.sknp x)) with pc := if s.key[k.val] then s.pc + 2 else s.pc + 4 }

/-- `LD Vx, DT` (R184). -/
def Obligations.ReadDelayTimer : Prop :=
  EncodedBy (fun w => family w = 0xF ∧ (fieldNN w).toNat = 0x07) (fun w => .ldVxDT (fieldX w)) ∧
  ∀ (x : Reg) (s : State), exec (.ldVxDT x) s = .next { s.latch (encode (.ldVxDT x)) with V := s.V.set x.val s.DT }

/-- `LD DT, Vx` (R186). -/
def Obligations.WriteDelayTimer : Prop :=
  EncodedBy (fun w => family w = 0xF ∧ (fieldNN w).toNat = 0x15) (fun w => .ldDTVx (fieldX w)) ∧
  ∀ (x : Reg) (s : State), exec (.ldDTVx x) s = .next { s.latch (encode (.ldDTVx x)) with DT := s.V[x.val] }

/-- `LD ST, Vx` (R187), and `soundActive` after it. -/
def Obligations.WriteSoundTimer : Prop :=
  EncodedBy (fun w => family w = 0xF ∧ (fieldNN w).toNat = 0x18) (fun w => .ldSTVx (fieldX w)) ∧
  ∀ (x : Reg) (s : State), ∃ t, exec (.ldSTVx x) s = .next t ∧
    t = { s.latch (encode (.ldSTVx x)) with ST := s.V[x.val] } ∧ (t.outputs.soundActive = true ↔ s.V[x.val] ≠ 0)

/-- `LD Vx, K` (R185, R181): no key held, back to this instruction; else a held key's number, the lowest under
KEY_SELECT = lowest, one of them under KEY_SELECT = any, whatever the free value draws (the spec's own decision D23, log entry 4). -/
def Obligations.WaitForAKey : Prop :=
  EncodedBy (fun w => family w = 0xF ∧ (fieldNN w).toNat = 0x0A) (fun w => .ldVxK (fieldX w)) ∧
  (∀ (x : Reg) (s : State), (∀ k : Key, s.key[k.val] = false) →
    exec (.ldVxK x) s = .next { s.latch (encode (.ldVxK x)) with pc := s.pc }) ∧
  (∀ (x : Reg) (s : State) (k : Key), s.config.keySelect = .lowest → s.key[k.val] = true →
    (∀ j : Key, j < k → s.key[j.val] = false) →
    exec (.ldVxK x) s = .next { s.latch (encode (.ldVxK x)) with V := s.V.set x.val (BitVec.ofNat 8 k.val) }) ∧
  ∀ (x : Reg) (s : State), s.config.keySelect = .any → (∃ k : Key, s.key[k.val] = true) →
    ∃ k : Key, s.key[k.val] = true ∧ exec (.ldVxK x) s = .next { s.latch (encode (.ldVxK x)) with
      V := s.V.set x.val (BitVec.ofNat 8 k.val), keyDraws := s.keyDraws + 1 }

/-- A core waiting in `FX0A` with no key held stays where it is: the cycle after a waiting cycle changes nothing (R249). -/
def Obligations.WaitingCycleRepeats : Prop :=
  ∀ (s t : State) (x : Reg), Runs s (.ldVxK x) → (∀ k : Key, s.key[k.val] = false) → step s = .next t →
    t = { s with opcode := encode (.ldVxK x) } ∧ step t = .next t

/-- The timers under any number of ticks (R220): each counts down by one a tick, floored at 0, nothing else changes. -/
def Obligations.TicksCountBothTimersDown : Prop :=
  ∀ (s : State) (n : Nat), s.halted = false →
    ∃ t, serveAll s (List.replicate n .tick) = .next t ∧ t = { s with DT := t.DT, ST := t.ST } ∧
      t.DT.toNat = s.DT.toNat - n ∧ t.ST.toNat = s.ST.toNat - n

/-! ## Faults -/

/-- The codes and infos of R200, the spec's own decision D12. -/
def Obligations.FaultCodesAreTheTable : Prop :=
  (∀ f : Fault, 1 ≤ f.code ∧ f.code ≤ 8) ∧
  [Fault.unknownOpcode, .stackOverflow, .stackUnderflow, .misalignedFetch, .fetchOutOfRange].map
    (fun f => (f.code, f.info)) = [(1, none), (2, none), (3, none), (4, none), (5, none)] ∧
  ∀ n, (Fault.memoryOutOfRange n).code = 6 ∧ (Fault.fontRegionWrite n).code = 7 ∧ (Fault.keyIndexOutOfRange n).code = 8 ∧
    (Fault.memoryOutOfRange n).info = some n ∧ (Fault.fontRegionWrite n).info = some n ∧
    (Fault.keyIndexOutOfRange n).info = some n

/-- Faults are precise (R206, which the spec derives; its own decision D12): a cycle that faults changes `halted` and `fault` only, and its record holds the
instruction's address and the fetched word, which codes 4 and 5 lack. -/
def Obligations.FaultsArePrecise : Prop :=
  ∀ s t : State, s.halted = false → step s = .next t → t.halted = true →
    ∃ r, t = { s with halted := true, fault := some r } ∧ r.address = s.pc ∧
      (r.opcode = none ↔ r.code = 4 ∨ r.code = 5) ∧ ∀ w, r.opcode = some w → FetchesWord s w

/-- Which cycle raises which fault (R200; the spec's own decisions D5, D6, D8 to D11, D24): each record's cause names its
condition before the cycle and the instruction that ran. A data address in a record is that instruction's own access at
offset k, the first that fails: no earlier one does (R205, D31). -/
def Obligations.EachFaultHasItsRaiser : Prop :=
  ∀ (s t : State) (r : FaultRecord), s.halted = false → step s = .next t → t.halted = true → t.fault = some r →
    match r.cause with
    | .unknownOpcode => ∃ w, FetchesWord s w ∧ decode w = none
    | .stackOverflow => s.sp.val = 16 ∧ ∃ nnn, Runs s (.call nnn)
    | .stackUnderflow => s.sp.val = 0 ∧ Runs s .ret
    | .misalignedFetch => s.config.oddFetch = .fault ∧ s.pc.toNat % 2 = 1
    | .fetchOutOfRange => (s.config.oddFetch = .fault → s.pc.toNat % 2 = 0) ∧ 0xFFF < s.pc.toNat + 1
    | .memoryOutOfRange a => 0xFFF < a ∧ ∃ k, a = dataAddr s k ∧
        (((∃ x y n, k < n ∧ Runs s (.drw x y n)) ∨ ∃ x : Reg, k ≤ x.val ∧ Runs s (.load x)) ∧
            (∀ j < k, dataAddr s j ≤ 0xFFF) ∨
          ((∃ x, k < 3 ∧ Runs s (.ldB x)) ∨ ∃ x : Reg, k ≤ x.val ∧ Runs s (.dump x)) ∧
            ∀ j < k, WriteAllowed s (dataAddr s j))
    | .fontRegionWrite a => s.config.fontWrite = .fault ∧ inFont s.config a = true ∧ ∃ k, a = dataAddr s k ∧
        ((∃ x, k < 3 ∧ Runs s (.ldB x)) ∨ ∃ x : Reg, k ≤ x.val ∧ Runs s (.dump x)) ∧
        ∀ j < k, WriteAllowed s (dataAddr s j)
    | .keyIndexOutOfRange v => 15 < v ∧ ∃ x, (s.reg x).toNat = v ∧ (Runs s (.skp x) ∨ Runs s (.sknp x))

/-- The halted state (R203, the spec's own decision D13): a cycle and a tick change nothing; keypad writes, draw flag clears and loads take effect. -/
def Obligations.HaltedCoreOnlyAnswersTheHost : Prop :=
  ∀ s : State, s.halted = true →
    serve .cycle s = .next (.cycle (.halted s.fault), s) ∧ serve .tick s = .next (.done, s) ∧
    (∀ keys, serve (.keypad keys) s = .next (.done, { s with key := keys })) ∧
    serve .drawFlagClear s = .next (.done, { s with drawFlag := false }) ∧
    ∀ image, image.length ≤ 3584 → ∃ t, serve (.load image) s = .next (.ok, t) ∧
      ∀ k < image.length, t.readByte (0x200 + k) = image.getD k 0

/-- What a cycle answers (R45): `Halted` and nothing changed where it was halted; else `Continue`, or `Fault` with the record
it wrote, nothing else committed. That a halted cycle changes nothing is the spec's own decision D13, that a fault undoes pc and
`opcode` too D12 (log entry 6), and that it is a next state the model's choice (log entry 9). -/
def Obligations.CycleAnswersItsOutcome : Prop :=
  ∀ s : State,
    (s.halted = true → serve .cycle s = .next (.cycle (.halted s.fault), s)) ∧
    (s.halted = false → ∃ t, step s = .next t ∧
      ((t.halted = false ∧ t.fault = s.fault ∧ serve .cycle s = .next (.cycle .continue, t)) ∨
        ∃ r, t = { s with halted := true, fault := some r } ∧ serve .cycle s = .next (.cycle (.fault (some r)), t)))

/-! ## Reset and load -/

/-- The reset request (R240, R46), from any state, for every value of the parameters. The scalars' zeros are the spec's own
decision D26. -/
def Obligations.ResetWritesEveryElement : Prop :=
  ∀ (s : State) (hiRes superChip : Bool), ∃ t, serve (.reset hiRes superChip) s = .next (.done, t) ∧
    (∀ a < 4096, t.readByte a = if inFont s.config a then s.config.fontTable.toList.getD (a - s.config.fontBase.addr) 0 else 0) ∧
    (∀ k : Fin 16, t.V[k.val] = 0 ∧ t.stack[k.val] = 0 ∧ t.key[k.val] = false) ∧
    t.hiResMode = hiRes ∧ t.superChipMode = superChip ∧ t.fb.length = 64 * (if hiRes then 64 else 32) ∧
    (∀ p < t.fb.length, t.fb[p]? = some false) ∧ t.rng = s.config.rngSeed ∧ t.pc = 0x200 ∧ t.I = 0 ∧ t.sp = 0 ∧
    t.DT = 0 ∧ t.ST = 0 ∧ t.drawFlag = false ∧ t.opcode = 0 ∧ t.halted = false ∧ t.fault = none

/-- The load request (R243, R244). That it writes nothing else is the spec's own decision D27. -/
def Obligations.LoadCopiesTheImage : Prop :=
  ∀ (s : State) (image : List Byte),
    (4096 - 512 < image.length → serve (.load image) s = .next (.programTooLarge, s)) ∧
    (image.length ≤ 4096 - 512 → ∃ t, serve (.load image) s = .next (.ok, t) ∧ t = { s with mem := t.mem } ∧
      (∀ k < image.length, t.readByte (0x200 + k) = image.getD k 0) ∧
      ∀ a, a < 0x200 ∨ 0x200 + image.length ≤ a → t.readByte a = s.readByte a)

/-- Boot (R242, R245): after a reset and a load the next cycle fetches the image's first word, big-endian. -/
def Obligations.BootFetchesTheFirstWord : Prop :=
  ∀ (s : State) (hiRes superChip : Bool) (hi lo : Byte) (rest : List Byte), rest.length + 2 ≤ 3584 →
    ∃ t w, serveAll s [.reset hiRes superChip, .load (hi :: lo :: rest)] = .next t ∧ FetchesWord t w ∧
      w.toNat = hi.toNat * 256 + lo.toNat

/-! ## The whole machine -/

/-- The frame of every instruction: a committed cycle changes pc, `opcode` and what `mayChange` lists, and nothing else;
for `FX33` and `FX55` the stored bytes are those from `dataAddr s 0` up, and no other byte changes. -/
def Obligations.EveryInstructionKeepsTheRest : Prop :=
  ∀ (i : Instr) (s t : State), exec i s = .next t → Kept (mayChange i s) s t ∨ ∃ f, t = s.raise f (some (encode i))

/-- The invariant holds after every reset, for every parameter. -/
def Obligations.ResetMeetsTheInvariant : Prop :=
  State.reset.Inv ∧ ∀ (c : Config) (hiRes superChip : Bool), (State.resetWith c hiRes superChip).Inv

/-- Every cycle keeps the invariant: memory canonical, framebuffer of its mode's length, a record exactly while halted,
pc and the stack entries within the bounds of R25. -/
def Obligations.EveryCycleKeepsTheInvariant : Prop :=
  ∀ s t : State, s.Inv → step s = .next t → t.Inv ∧ t.config = s.config

/-- Every run of requests keeps the invariant, whatever the host's order (R44, R221). -/
def Obligations.EveryRunKeepsTheInvariant : Prop :=
  ∀ (rs : List Request) (s : State), s.Inv → (∀ r ∈ rs, r.Legit s.config) →
    ∃ t, serveAll s rs = .next t ∧ t.Inv ∧ t.config = s.config

/-- Under FONT_WRITE = fault the font region reads as reset left it, whatever a program or a load does (R55, the
spec's own decision D11). -/
def Obligations.FontStaysAsReset : Prop :=
  ∀ (r : Request) (s t : State) (a : Reply), (∀ u, r ≠ .restore u) → s.config.fontWrite = .fault → s.FontIntact →
    serve r s = .next (a, t) → t.FontIntact

/-- Who can change what, over every request but reset and restore, which write every element: each state element changes
only by the instructions and requests the spec names as its writers (10_state R21 to R38, 20_memory R51, 60_exceptions R204,
R222 to R225). For V and memory each register and byte changes only where the instruction that ran writes it. The parameters,
which are the model's own field (log entry 1), change by neither; its count of free draws only by `FX0A` (log entry 4). -/
def Obligations.OnlyTheNamedWritersWrite : Prop :=
  ∀ (r : Request) (s t : State) (a : Reply), serve r s = .next (a, t) → (∀ u, r ≠ .restore u) → (∀ h c, r ≠ .reset h c) →
    (t.mem ≠ s.mem → (∃ image, r = .load image) ∨ r = .cycle ∧ ∃ x, Runs s (.ldB x) ∨ Runs s (.dump x)) ∧
    (∀ b, t.readByte b ≠ s.readByte b →
      (∃ image, r = .load image ∧ 0x200 ≤ b ∧ b < 0x200 + image.length) ∨
      r = .cycle ∧ ∃ x : Reg, Runs s (.ldB x) ∧ (∃ k < 3, b = dataAddr s k) ∨
        Runs s (.dump x) ∧ ∃ k ≤ x.val, b = dataAddr s k) ∧
    (∀ v, t.reg v ≠ s.reg v → r = .cycle ∧ ∃ i, Runs s i ∧ WritesReg i v) ∧
    (t.pc ≠ s.pc → r = .cycle) ∧
    (t.opcode ≠ s.opcode → r = .cycle ∧ FetchesWord s t.opcode) ∧
    (t.I ≠ s.I → r = .cycle ∧ ((∃ nnn, Runs s (.ldI nnn)) ∨ ∃ x, Runs s (.addI x) ∨ Runs s (.ldF x))) ∧
    (t.stack ≠ s.stack → r = .cycle ∧ ∃ nnn, Runs s (.call nnn)) ∧
    (t.sp ≠ s.sp → r = .cycle ∧ (Runs s .ret ∨ ∃ nnn, Runs s (.call nnn))) ∧
    (t.DT ≠ s.DT → r = .tick ∨ r = .cycle ∧ ∃ x, Runs s (.ldDTVx x)) ∧
    (t.ST ≠ s.ST → r = .tick ∨ r = .cycle ∧ ∃ x, Runs s (.ldSTVx x)) ∧
    (t.key ≠ s.key → ∃ keys, r = .keypad keys) ∧
    (t.rng ≠ s.rng → r = .cycle ∧ ∃ x nn, Runs s (.rnd x nn)) ∧
    (t.fb ≠ s.fb → r = .cycle ∧ (Runs s .cls ∨ ∃ x y n, Runs s (.drw x y n))) ∧
    (t.drawFlag ≠ s.drawFlag → r = .drawFlagClear ∧ t.drawFlag = false ∨
      r = .cycle ∧ t.drawFlag = true ∧ (Runs s .cls ∨ ∃ x y n, Runs s (.drw x y n))) ∧
    (t.halted ≠ s.halted ∨ t.fault ≠ s.fault → r = .cycle ∧ s.halted = false ∧ t.halted = true) ∧
    (t.keyDraws ≠ s.keyDraws → r = .cycle ∧ ∃ x, Runs s (.ldVxK x)) ∧
    t.hiResMode = s.hiResMode ∧ t.superChipMode = s.superChipMode ∧ t.config = s.config

/-- No cycle reads `opcode`, ST, `drawFlag` or `superChipMode` (R30, R34, R36, R39): two states that differ there only
step to states that differ there only. -/
def Obligations.CyclesIgnoreWhatNoInstructionReads : Prop :=
  ∀ s s' t : State, s.unread = s'.unread → step s = .next t → ∃ t', step s' = .next t' ∧ t'.unread = t.unread
end

