-- ==== Sys2Proof/Laws/Decode.lean ====
section
/-! SUPPORT. What the fields of a packed word are, and its bits under each mask of the opcode table. -/

namespace Sys2Proof

section Fields

variable (f : BitVec 4) (x y : Reg) (n : BitVec 4) (nn : Byte) (nnn : BitVec 12)

@[simp] theorem family_packNNN : family (packNNN f nnn) = f.toNat := by
  have := nnn.isLt
  simp only [family, packNNN, BitVec.extractLsb'_toNat, BitVec.toNat_append, Nat.shiftRight_eq_div_pow]
  rw [← Nat.shiftLeft_add_eq_or_of_lt this, Nat.shiftLeft_eq]
  omega

@[simp] theorem fieldNNN_packNNN : fieldNNN (packNNN f nnn) = nnn := by
  exact BitVec.extractLsb'_append_eq_right (a := f) (b := nnn)

theorem toNat_packXNN : (packXNN f x nn).toNat = f.toNat * 4096 + x.val * 256 + nn.toNat := by
  have := nn.isLt
  have := x.isLt
  simp only [packXNN, BitVec.toNat_append, BitVec.toNat_ofFin]
  rw [← Nat.shiftLeft_add_eq_or_of_lt nn.isLt, ← Nat.shiftLeft_add_eq_or_of_lt x.isLt, Nat.shiftLeft_eq, Nat.shiftLeft_eq]
  omega

theorem toNat_packXYN : (packXYN f x y n).toNat = f.toNat * 4096 + x.val * 256 + y.val * 16 + n.toNat := by
  simp only [packXYN, BitVec.toNat_append, BitVec.toNat_ofFin]
  rw [← Nat.shiftLeft_add_eq_or_of_lt n.isLt, ← Nat.shiftLeft_add_eq_or_of_lt y.isLt,
    ← Nat.shiftLeft_add_eq_or_of_lt x.isLt, Nat.shiftLeft_eq, Nat.shiftLeft_eq, Nat.shiftLeft_eq]
  omega

theorem family_eq (w : Word) : family w = w.toNat / 4096 := by
  have := w.isLt
  simp only [family, BitVec.extractLsb'_toNat, Nat.shiftRight_eq_div_pow]
  omega

theorem fieldX_val (w : Word) : (fieldX w).val = w.toNat / 256 % 16 := by
  simp [fieldX, Nat.shiftRight_eq_div_pow]

theorem fieldY_val (w : Word) : (fieldY w).val = w.toNat / 16 % 16 := by
  simp [fieldY, Nat.shiftRight_eq_div_pow]

theorem fieldN_eq (w : Word) : fieldN w = w.toNat % 16 := by
  simp [fieldN, fieldLow]

theorem toNat_fieldNN (w : Word) : (fieldNN w).toNat = w.toNat % 256 := by
  simp [fieldNN]

theorem toNat_fieldNNN (w : Word) : (fieldNNN w).toNat = w.toNat % 4096 := by
  simp [fieldNNN]

@[simp] theorem family_packXNN : family (packXNN f x nn) = f.toNat := by
  have := nn.isLt
  have := x.isLt
  rw [family_eq, toNat_packXNN]; omega

@[simp] theorem fieldX_packXNN : fieldX (packXNN f x nn) = x := by
  have := nn.isLt
  have := x.isLt
  refine Fin.ext ?_
  rw [fieldX_val, toNat_packXNN]; omega

@[simp] theorem fieldNN_packXNN : fieldNN (packXNN f x nn) = nn := by
  have := nn.isLt
  refine BitVec.eq_of_toNat_eq ?_
  rw [toNat_fieldNN, toNat_packXNN]; omega

@[simp] theorem family_packXYN : family (packXYN f x y n) = f.toNat := by
  have := n.isLt
  have := x.isLt
  have := y.isLt
  rw [family_eq, toNat_packXYN]; omega

@[simp] theorem fieldX_packXYN : fieldX (packXYN f x y n) = x := by
  have := n.isLt
  have := x.isLt
  have := y.isLt
  refine Fin.ext ?_
  rw [fieldX_val, toNat_packXYN]; omega

@[simp] theorem fieldY_packXYN : fieldY (packXYN f x y n) = y := by
  have := n.isLt
  have := y.isLt
  refine Fin.ext ?_
  rw [fieldY_val, toNat_packXYN]; omega

@[simp] theorem fieldN_packXYN : fieldN (packXYN f x y n) = n.toNat := by
  have := n.isLt
  rw [fieldN_eq, toNat_packXYN]; omega

@[simp] theorem fieldLow_packXYN : fieldLow (packXYN f x y n) = n := by
  refine BitVec.eq_of_toNat_eq ?_
  exact fieldN_packXYN f x y n

end Fields

section Words

variable (w : Word)

/-- A word is its family and NNN. -/
theorem packNNN_fields : packNNN (BitVec.ofNat 4 (family w)) (fieldNNN w) = w := by
  refine BitVec.eq_of_toNat_eq ?_
  have := toNat_fieldNNN w
  have := w.isLt
  have := family_eq w
  simp only [packNNN, BitVec.toNat_append]
  rw [← Nat.shiftLeft_add_eq_or_of_lt (fieldNNN w).isLt, Nat.shiftLeft_eq, BitVec.toNat_ofNat]
  omega

/-- A word is its family, X and NN. -/
theorem packXNN_fields : packXNN (BitVec.ofNat 4 (family w)) (fieldX w) (fieldNN w) = w := by
  refine BitVec.eq_of_toNat_eq ?_
  have := toNat_fieldNN w
  have := w.isLt
  have := family_eq w
  have := fieldX_val w
  rw [toNat_packXNN, BitVec.toNat_ofNat]
  omega

/-- A word is its four nibbles. -/
theorem packXYN_fields : packXYN (BitVec.ofNat 4 (family w)) (fieldX w) (fieldY w) (fieldLow w) = w := by
  refine BitVec.eq_of_toNat_eq ?_
  have h : (fieldLow w).toNat = w.toNat % 16 := fieldN_eq w
  have := w.isLt
  have := family_eq w
  have := fieldX_val w
  have := fieldY_val w
  rw [toNat_packXYN, BitVec.toNat_ofNat]
  omega

end Words

section Masks

variable (f : BitVec 4) (x y : Reg) (n : BitVec 4) (nn : Byte) (nnn : BitVec 12)

theorem and_packNNN : packNNN f nnn &&& 0xF000#16 = f ++ 0#12 := by
  rw [packNNN, show (0xF000#16) = BitVec.allOnes 4 ++ 0#12 by decide, BitVec.and_append, BitVec.and_allOnes, BitVec.and_zero]

theorem and_packXNN : packXNN f x nn &&& 0xF000#16 = (f ++ 0#4) ++ 0#8 := by
  rw [packXNN, show (0xF000#16) = (BitVec.allOnes 4 ++ 0#4) ++ 0#8 by decide, BitVec.and_append, BitVec.and_append,
    BitVec.and_allOnes, BitVec.and_zero, BitVec.and_zero]

theorem and_packXSS : packXNN f x nn &&& 0xF0FF#16 = (f ++ 0#4) ++ nn := by
  rw [packXNN, show (0xF0FF#16) = (BitVec.allOnes 4 ++ 0#4) ++ BitVec.allOnes 8 by decide, BitVec.and_append,
    BitVec.and_append, BitVec.and_allOnes, BitVec.and_allOnes, BitVec.and_zero]

theorem and_packXY0 : packXYN f x y n &&& 0xF000#16 = ((f ++ 0#4) ++ 0#4) ++ 0#4 := by
  rw [packXYN, show (0xF000#16) = ((BitVec.allOnes 4 ++ 0#4) ++ 0#4) ++ 0#4 by decide, BitVec.and_append,
    BitVec.and_append, BitVec.and_append, BitVec.and_allOnes, BitVec.and_zero, BitVec.and_zero, BitVec.and_zero]

theorem and_packXYS : packXYN f x y n &&& 0xF00F#16 = ((f ++ 0#4) ++ 0#4) ++ n := by
  rw [packXYN, show (0xF00F#16) = ((BitVec.allOnes 4 ++ 0#4) ++ 0#4) ++ BitVec.allOnes 4 by decide, BitVec.and_append,
    BitVec.and_append, BitVec.and_append, BitVec.and_allOnes, BitVec.and_allOnes, BitVec.and_zero, BitVec.and_zero]

end Masks

end Sys2Proof
end

