-- ==== Sys2Proof/Laws/State.lean ====
section
/-! SUPPORT. One lemma per field and update of the state, so that no proof unfolds a record update. -/

namespace Sys2Proof.Machine

variable (s : State)

/-! ### `State.setReg` -/

@[simp] theorem State.setReg_mem (r : Reg) (v : Byte) : (s.setReg r v).mem = s.mem := rfl
@[simp] theorem State.setReg_V (r : Reg) (v : Byte) : (s.setReg r v).V = s.V.set r.val v := rfl
@[simp] theorem State.setReg_pc (r : Reg) (v : Byte) : (s.setReg r v).pc = s.pc := rfl
@[simp] theorem State.setReg_I (r : Reg) (v : Byte) : (s.setReg r v).I = s.I := rfl
@[simp] theorem State.setReg_stack (r : Reg) (v : Byte) : (s.setReg r v).stack = s.stack := rfl
@[simp] theorem State.setReg_sp (r : Reg) (v : Byte) : (s.setReg r v).sp = s.sp := rfl
@[simp] theorem State.setReg_key (r : Reg) (v : Byte) : (s.setReg r v).key = s.key := rfl
@[simp] theorem State.setReg_DT (r : Reg) (v : Byte) : (s.setReg r v).DT = s.DT := rfl
@[simp] theorem State.setReg_ST (r : Reg) (v : Byte) : (s.setReg r v).ST = s.ST := rfl
@[simp] theorem State.setReg_fb (r : Reg) (v : Byte) : (s.setReg r v).fb = s.fb := rfl
@[simp] theorem State.setReg_hiResMode (r : Reg) (v : Byte) : (s.setReg r v).hiResMode = s.hiResMode := rfl
@[simp] theorem State.setReg_superChipMode (r : Reg) (v : Byte) : (s.setReg r v).superChipMode = s.superChipMode := rfl
@[simp] theorem State.setReg_drawFlag (r : Reg) (v : Byte) : (s.setReg r v).drawFlag = s.drawFlag := rfl
@[simp] theorem State.setReg_opcode (r : Reg) (v : Byte) : (s.setReg r v).opcode = s.opcode := rfl
@[simp] theorem State.setReg_rng (r : Reg) (v : Byte) : (s.setReg r v).rng = s.rng := rfl
@[simp] theorem State.setReg_halted (r : Reg) (v : Byte) : (s.setReg r v).halted = s.halted := rfl
@[simp] theorem State.setReg_fault (r : Reg) (v : Byte) : (s.setReg r v).fault = s.fault := rfl
@[simp] theorem State.setReg_config (r : Reg) (v : Byte) : (s.setReg r v).config = s.config := rfl
@[simp] theorem State.setReg_keyDraws (r : Reg) (v : Byte) : (s.setReg r v).keyDraws = s.keyDraws := rfl

/-! ### `State.setPc` -/

@[simp] theorem State.setPc_mem (p : Word) : (s.setPc p).mem = s.mem := rfl
@[simp] theorem State.setPc_V (p : Word) : (s.setPc p).V = s.V := rfl
@[simp] theorem State.setPc_pc (p : Word) : (s.setPc p).pc = p := rfl
@[simp] theorem State.setPc_I (p : Word) : (s.setPc p).I = s.I := rfl
@[simp] theorem State.setPc_stack (p : Word) : (s.setPc p).stack = s.stack := rfl
@[simp] theorem State.setPc_sp (p : Word) : (s.setPc p).sp = s.sp := rfl
@[simp] theorem State.setPc_key (p : Word) : (s.setPc p).key = s.key := rfl
@[simp] theorem State.setPc_DT (p : Word) : (s.setPc p).DT = s.DT := rfl
@[simp] theorem State.setPc_ST (p : Word) : (s.setPc p).ST = s.ST := rfl
@[simp] theorem State.setPc_fb (p : Word) : (s.setPc p).fb = s.fb := rfl
@[simp] theorem State.setPc_hiResMode (p : Word) : (s.setPc p).hiResMode = s.hiResMode := rfl
@[simp] theorem State.setPc_superChipMode (p : Word) : (s.setPc p).superChipMode = s.superChipMode := rfl
@[simp] theorem State.setPc_drawFlag (p : Word) : (s.setPc p).drawFlag = s.drawFlag := rfl
@[simp] theorem State.setPc_opcode (p : Word) : (s.setPc p).opcode = s.opcode := rfl
@[simp] theorem State.setPc_rng (p : Word) : (s.setPc p).rng = s.rng := rfl
@[simp] theorem State.setPc_halted (p : Word) : (s.setPc p).halted = s.halted := rfl
@[simp] theorem State.setPc_fault (p : Word) : (s.setPc p).fault = s.fault := rfl
@[simp] theorem State.setPc_config (p : Word) : (s.setPc p).config = s.config := rfl
@[simp] theorem State.setPc_keyDraws (p : Word) : (s.setPc p).keyDraws = s.keyDraws := rfl

/-! ### `State.setI` -/

@[simp] theorem State.setI_mem (v : Word) : (s.setI v).mem = s.mem := rfl
@[simp] theorem State.setI_V (v : Word) : (s.setI v).V = s.V := rfl
@[simp] theorem State.setI_pc (v : Word) : (s.setI v).pc = s.pc := rfl
@[simp] theorem State.setI_I (v : Word) : (s.setI v).I = v := rfl
@[simp] theorem State.setI_stack (v : Word) : (s.setI v).stack = s.stack := rfl
@[simp] theorem State.setI_sp (v : Word) : (s.setI v).sp = s.sp := rfl
@[simp] theorem State.setI_key (v : Word) : (s.setI v).key = s.key := rfl
@[simp] theorem State.setI_DT (v : Word) : (s.setI v).DT = s.DT := rfl
@[simp] theorem State.setI_ST (v : Word) : (s.setI v).ST = s.ST := rfl
@[simp] theorem State.setI_fb (v : Word) : (s.setI v).fb = s.fb := rfl
@[simp] theorem State.setI_hiResMode (v : Word) : (s.setI v).hiResMode = s.hiResMode := rfl
@[simp] theorem State.setI_superChipMode (v : Word) : (s.setI v).superChipMode = s.superChipMode := rfl
@[simp] theorem State.setI_drawFlag (v : Word) : (s.setI v).drawFlag = s.drawFlag := rfl
@[simp] theorem State.setI_opcode (v : Word) : (s.setI v).opcode = s.opcode := rfl
@[simp] theorem State.setI_rng (v : Word) : (s.setI v).rng = s.rng := rfl
@[simp] theorem State.setI_halted (v : Word) : (s.setI v).halted = s.halted := rfl
@[simp] theorem State.setI_fault (v : Word) : (s.setI v).fault = s.fault := rfl
@[simp] theorem State.setI_config (v : Word) : (s.setI v).config = s.config := rfl
@[simp] theorem State.setI_keyDraws (v : Word) : (s.setI v).keyDraws = s.keyDraws := rfl

/-! ### `State.latch` -/

@[simp] theorem State.latch_mem (w : Word) : (s.latch w).mem = s.mem := rfl
@[simp] theorem State.latch_V (w : Word) : (s.latch w).V = s.V := rfl
@[simp] theorem State.latch_pc (w : Word) : (s.latch w).pc = s.pc + 2 := rfl
@[simp] theorem State.latch_I (w : Word) : (s.latch w).I = s.I := rfl
@[simp] theorem State.latch_stack (w : Word) : (s.latch w).stack = s.stack := rfl
@[simp] theorem State.latch_sp (w : Word) : (s.latch w).sp = s.sp := rfl
@[simp] theorem State.latch_key (w : Word) : (s.latch w).key = s.key := rfl
@[simp] theorem State.latch_DT (w : Word) : (s.latch w).DT = s.DT := rfl
@[simp] theorem State.latch_ST (w : Word) : (s.latch w).ST = s.ST := rfl
@[simp] theorem State.latch_fb (w : Word) : (s.latch w).fb = s.fb := rfl
@[simp] theorem State.latch_hiResMode (w : Word) : (s.latch w).hiResMode = s.hiResMode := rfl
@[simp] theorem State.latch_superChipMode (w : Word) : (s.latch w).superChipMode = s.superChipMode := rfl
@[simp] theorem State.latch_drawFlag (w : Word) : (s.latch w).drawFlag = s.drawFlag := rfl
@[simp] theorem State.latch_opcode (w : Word) : (s.latch w).opcode = w := rfl
@[simp] theorem State.latch_rng (w : Word) : (s.latch w).rng = s.rng := rfl
@[simp] theorem State.latch_halted (w : Word) : (s.latch w).halted = s.halted := rfl
@[simp] theorem State.latch_fault (w : Word) : (s.latch w).fault = s.fault := rfl
@[simp] theorem State.latch_config (w : Word) : (s.latch w).config = s.config := rfl
@[simp] theorem State.latch_keyDraws (w : Word) : (s.latch w).keyDraws = s.keyDraws := rfl

/-! ### `State.raise` -/

@[simp] theorem State.raise_mem (f : Fault) (w : Option Word) : (s.raise f w).mem = s.mem := rfl
@[simp] theorem State.raise_V (f : Fault) (w : Option Word) : (s.raise f w).V = s.V := rfl
@[simp] theorem State.raise_pc (f : Fault) (w : Option Word) : (s.raise f w).pc = s.pc := rfl
@[simp] theorem State.raise_I (f : Fault) (w : Option Word) : (s.raise f w).I = s.I := rfl
@[simp] theorem State.raise_stack (f : Fault) (w : Option Word) : (s.raise f w).stack = s.stack := rfl
@[simp] theorem State.raise_sp (f : Fault) (w : Option Word) : (s.raise f w).sp = s.sp := rfl
@[simp] theorem State.raise_key (f : Fault) (w : Option Word) : (s.raise f w).key = s.key := rfl
@[simp] theorem State.raise_DT (f : Fault) (w : Option Word) : (s.raise f w).DT = s.DT := rfl
@[simp] theorem State.raise_ST (f : Fault) (w : Option Word) : (s.raise f w).ST = s.ST := rfl
@[simp] theorem State.raise_fb (f : Fault) (w : Option Word) : (s.raise f w).fb = s.fb := rfl
@[simp] theorem State.raise_hiResMode (f : Fault) (w : Option Word) : (s.raise f w).hiResMode = s.hiResMode := rfl
@[simp] theorem State.raise_superChipMode (f : Fault) (w : Option Word) : (s.raise f w).superChipMode = s.superChipMode := rfl
@[simp] theorem State.raise_drawFlag (f : Fault) (w : Option Word) : (s.raise f w).drawFlag = s.drawFlag := rfl
@[simp] theorem State.raise_opcode (f : Fault) (w : Option Word) : (s.raise f w).opcode = s.opcode := rfl
@[simp] theorem State.raise_rng (f : Fault) (w : Option Word) : (s.raise f w).rng = s.rng := rfl
@[simp] theorem State.raise_halted (f : Fault) (w : Option Word) : (s.raise f w).halted = true := rfl
@[simp] theorem State.raise_fault (f : Fault) (w : Option Word) : (s.raise f w).fault = some ⟨f, w, s.pc⟩ := rfl
@[simp] theorem State.raise_config (f : Fault) (w : Option Word) : (s.raise f w).config = s.config := rfl
@[simp] theorem State.raise_keyDraws (f : Fault) (w : Option Word) : (s.raise f w).keyDraws = s.keyDraws := rfl

/-! ### `State.writeByte` -/

@[simp] theorem State.writeByte_mem (a : Nat) (v : Byte) : (s.writeByte a v).mem = s.mem.write (resetByte s.config) a v := rfl
@[simp] theorem State.writeByte_V (a : Nat) (v : Byte) : (s.writeByte a v).V = s.V := rfl
@[simp] theorem State.writeByte_pc (a : Nat) (v : Byte) : (s.writeByte a v).pc = s.pc := rfl
@[simp] theorem State.writeByte_I (a : Nat) (v : Byte) : (s.writeByte a v).I = s.I := rfl
@[simp] theorem State.writeByte_stack (a : Nat) (v : Byte) : (s.writeByte a v).stack = s.stack := rfl
@[simp] theorem State.writeByte_sp (a : Nat) (v : Byte) : (s.writeByte a v).sp = s.sp := rfl
@[simp] theorem State.writeByte_key (a : Nat) (v : Byte) : (s.writeByte a v).key = s.key := rfl
@[simp] theorem State.writeByte_DT (a : Nat) (v : Byte) : (s.writeByte a v).DT = s.DT := rfl
@[simp] theorem State.writeByte_ST (a : Nat) (v : Byte) : (s.writeByte a v).ST = s.ST := rfl
@[simp] theorem State.writeByte_fb (a : Nat) (v : Byte) : (s.writeByte a v).fb = s.fb := rfl
@[simp] theorem State.writeByte_hiResMode (a : Nat) (v : Byte) : (s.writeByte a v).hiResMode = s.hiResMode := rfl
@[simp] theorem State.writeByte_superChipMode (a : Nat) (v : Byte) : (s.writeByte a v).superChipMode = s.superChipMode := rfl
@[simp] theorem State.writeByte_drawFlag (a : Nat) (v : Byte) : (s.writeByte a v).drawFlag = s.drawFlag := rfl
@[simp] theorem State.writeByte_opcode (a : Nat) (v : Byte) : (s.writeByte a v).opcode = s.opcode := rfl
@[simp] theorem State.writeByte_rng (a : Nat) (v : Byte) : (s.writeByte a v).rng = s.rng := rfl
@[simp] theorem State.writeByte_halted (a : Nat) (v : Byte) : (s.writeByte a v).halted = s.halted := rfl
@[simp] theorem State.writeByte_fault (a : Nat) (v : Byte) : (s.writeByte a v).fault = s.fault := rfl
@[simp] theorem State.writeByte_config (a : Nat) (v : Byte) : (s.writeByte a v).config = s.config := rfl
@[simp] theorem State.writeByte_keyDraws (a : Nat) (v : Byte) : (s.writeByte a v).keyDraws = s.keyDraws := rfl

/-! ### `State.setResultFlag` -/

@[simp] theorem State.setResultFlag_mem (x : Reg) (v : Byte) (c : Bool) : (s.setResultFlag x v c).mem = s.mem := rfl
@[simp] theorem State.setResultFlag_V (x : Reg) (v : Byte) (c : Bool) : (s.setResultFlag x v c).V = (s.V.set x.val v).set 15 (flagByte c) := rfl
@[simp] theorem State.setResultFlag_pc (x : Reg) (v : Byte) (c : Bool) : (s.setResultFlag x v c).pc = s.pc := rfl
@[simp] theorem State.setResultFlag_I (x : Reg) (v : Byte) (c : Bool) : (s.setResultFlag x v c).I = s.I := rfl
@[simp] theorem State.setResultFlag_stack (x : Reg) (v : Byte) (c : Bool) : (s.setResultFlag x v c).stack = s.stack := rfl
@[simp] theorem State.setResultFlag_sp (x : Reg) (v : Byte) (c : Bool) : (s.setResultFlag x v c).sp = s.sp := rfl
@[simp] theorem State.setResultFlag_key (x : Reg) (v : Byte) (c : Bool) : (s.setResultFlag x v c).key = s.key := rfl
@[simp] theorem State.setResultFlag_DT (x : Reg) (v : Byte) (c : Bool) : (s.setResultFlag x v c).DT = s.DT := rfl
@[simp] theorem State.setResultFlag_ST (x : Reg) (v : Byte) (c : Bool) : (s.setResultFlag x v c).ST = s.ST := rfl
@[simp] theorem State.setResultFlag_fb (x : Reg) (v : Byte) (c : Bool) : (s.setResultFlag x v c).fb = s.fb := rfl
@[simp] theorem State.setResultFlag_hiResMode (x : Reg) (v : Byte) (c : Bool) : (s.setResultFlag x v c).hiResMode = s.hiResMode := rfl
@[simp] theorem State.setResultFlag_superChipMode (x : Reg) (v : Byte) (c : Bool) : (s.setResultFlag x v c).superChipMode = s.superChipMode := rfl
@[simp] theorem State.setResultFlag_drawFlag (x : Reg) (v : Byte) (c : Bool) : (s.setResultFlag x v c).drawFlag = s.drawFlag := rfl
@[simp] theorem State.setResultFlag_opcode (x : Reg) (v : Byte) (c : Bool) : (s.setResultFlag x v c).opcode = s.opcode := rfl
@[simp] theorem State.setResultFlag_rng (x : Reg) (v : Byte) (c : Bool) : (s.setResultFlag x v c).rng = s.rng := rfl
@[simp] theorem State.setResultFlag_halted (x : Reg) (v : Byte) (c : Bool) : (s.setResultFlag x v c).halted = s.halted := rfl
@[simp] theorem State.setResultFlag_fault (x : Reg) (v : Byte) (c : Bool) : (s.setResultFlag x v c).fault = s.fault := rfl
@[simp] theorem State.setResultFlag_config (x : Reg) (v : Byte) (c : Bool) : (s.setResultFlag x v c).config = s.config := rfl
@[simp] theorem State.setResultFlag_keyDraws (x : Reg) (v : Byte) (c : Bool) : (s.setResultFlag x v c).keyDraws = s.keyDraws := rfl

/-! ### `State.clearScreen` -/

@[simp] theorem State.clearScreen_mem : (s.clearScreen).mem = s.mem := rfl
@[simp] theorem State.clearScreen_V : (s.clearScreen).V = s.V := rfl
@[simp] theorem State.clearScreen_pc : (s.clearScreen).pc = s.pc := rfl
@[simp] theorem State.clearScreen_I : (s.clearScreen).I = s.I := rfl
@[simp] theorem State.clearScreen_stack : (s.clearScreen).stack = s.stack := rfl
@[simp] theorem State.clearScreen_sp : (s.clearScreen).sp = s.sp := rfl
@[simp] theorem State.clearScreen_key : (s.clearScreen).key = s.key := rfl
@[simp] theorem State.clearScreen_DT : (s.clearScreen).DT = s.DT := rfl
@[simp] theorem State.clearScreen_ST : (s.clearScreen).ST = s.ST := rfl
@[simp] theorem State.clearScreen_fb : (s.clearScreen).fb = List.replicate s.fb.length false := rfl
@[simp] theorem State.clearScreen_hiResMode : (s.clearScreen).hiResMode = s.hiResMode := rfl
@[simp] theorem State.clearScreen_superChipMode : (s.clearScreen).superChipMode = s.superChipMode := rfl
@[simp] theorem State.clearScreen_drawFlag : (s.clearScreen).drawFlag = true := rfl
@[simp] theorem State.clearScreen_opcode : (s.clearScreen).opcode = s.opcode := rfl
@[simp] theorem State.clearScreen_rng : (s.clearScreen).rng = s.rng := rfl
@[simp] theorem State.clearScreen_halted : (s.clearScreen).halted = s.halted := rfl
@[simp] theorem State.clearScreen_fault : (s.clearScreen).fault = s.fault := rfl
@[simp] theorem State.clearScreen_config : (s.clearScreen).config = s.config := rfl
@[simp] theorem State.clearScreen_keyDraws : (s.clearScreen).keyDraws = s.keyDraws := rfl

/-! ### `State.skipIf` -/

@[simp] theorem State.skipIf_mem (c : Bool) : (s.skipIf c).mem = s.mem := by cases c <;> rfl
@[simp] theorem State.skipIf_V (c : Bool) : (s.skipIf c).V = s.V := by cases c <;> rfl
@[simp] theorem State.skipIf_pc (c : Bool) : (s.skipIf c).pc = if c then s.pc + 2 else s.pc := by cases c <;> rfl
@[simp] theorem State.skipIf_I (c : Bool) : (s.skipIf c).I = s.I := by cases c <;> rfl
@[simp] theorem State.skipIf_stack (c : Bool) : (s.skipIf c).stack = s.stack := by cases c <;> rfl
@[simp] theorem State.skipIf_sp (c : Bool) : (s.skipIf c).sp = s.sp := by cases c <;> rfl
@[simp] theorem State.skipIf_key (c : Bool) : (s.skipIf c).key = s.key := by cases c <;> rfl
@[simp] theorem State.skipIf_DT (c : Bool) : (s.skipIf c).DT = s.DT := by cases c <;> rfl
@[simp] theorem State.skipIf_ST (c : Bool) : (s.skipIf c).ST = s.ST := by cases c <;> rfl
@[simp] theorem State.skipIf_fb (c : Bool) : (s.skipIf c).fb = s.fb := by cases c <;> rfl
@[simp] theorem State.skipIf_hiResMode (c : Bool) : (s.skipIf c).hiResMode = s.hiResMode := by cases c <;> rfl
@[simp] theorem State.skipIf_superChipMode (c : Bool) : (s.skipIf c).superChipMode = s.superChipMode := by cases c <;> rfl
@[simp] theorem State.skipIf_drawFlag (c : Bool) : (s.skipIf c).drawFlag = s.drawFlag := by cases c <;> rfl
@[simp] theorem State.skipIf_opcode (c : Bool) : (s.skipIf c).opcode = s.opcode := by cases c <;> rfl
@[simp] theorem State.skipIf_rng (c : Bool) : (s.skipIf c).rng = s.rng := by cases c <;> rfl
@[simp] theorem State.skipIf_halted (c : Bool) : (s.skipIf c).halted = s.halted := by cases c <;> rfl
@[simp] theorem State.skipIf_fault (c : Bool) : (s.skipIf c).fault = s.fault := by cases c <;> rfl
@[simp] theorem State.skipIf_config (c : Bool) : (s.skipIf c).config = s.config := by cases c <;> rfl
@[simp] theorem State.skipIf_keyDraws (c : Bool) : (s.skipIf c).keyDraws = s.keyDraws := by cases c <;> rfl

/-! ### `State.blit` -/

@[simp] theorem State.blit_mem (x y : Reg) (rows : List Byte) : (s.blit x y rows).mem = s.mem := rfl
@[simp] theorem State.blit_pc (x y : Reg) (rows : List Byte) : (s.blit x y rows).pc = s.pc := rfl
@[simp] theorem State.blit_I (x y : Reg) (rows : List Byte) : (s.blit x y rows).I = s.I := rfl
@[simp] theorem State.blit_stack (x y : Reg) (rows : List Byte) : (s.blit x y rows).stack = s.stack := rfl
@[simp] theorem State.blit_sp (x y : Reg) (rows : List Byte) : (s.blit x y rows).sp = s.sp := rfl
@[simp] theorem State.blit_key (x y : Reg) (rows : List Byte) : (s.blit x y rows).key = s.key := rfl
@[simp] theorem State.blit_DT (x y : Reg) (rows : List Byte) : (s.blit x y rows).DT = s.DT := rfl
@[simp] theorem State.blit_ST (x y : Reg) (rows : List Byte) : (s.blit x y rows).ST = s.ST := rfl
@[simp] theorem State.blit_hiResMode (x y : Reg) (rows : List Byte) : (s.blit x y rows).hiResMode = s.hiResMode := rfl
@[simp] theorem State.blit_superChipMode (x y : Reg) (rows : List Byte) : (s.blit x y rows).superChipMode = s.superChipMode := rfl
@[simp] theorem State.blit_opcode (x y : Reg) (rows : List Byte) : (s.blit x y rows).opcode = s.opcode := rfl
@[simp] theorem State.blit_rng (x y : Reg) (rows : List Byte) : (s.blit x y rows).rng = s.rng := rfl
@[simp] theorem State.blit_halted (x y : Reg) (rows : List Byte) : (s.blit x y rows).halted = s.halted := rfl
@[simp] theorem State.blit_fault (x y : Reg) (rows : List Byte) : (s.blit x y rows).fault = s.fault := rfl
@[simp] theorem State.blit_config (x y : Reg) (rows : List Byte) : (s.blit x y rows).config = s.config := rfl
@[simp] theorem State.blit_keyDraws (x y : Reg) (rows : List Byte) : (s.blit x y rows).keyDraws = s.keyDraws := rfl
@[simp] theorem State.blit_drawFlag (x y : Reg) (rows : List Byte) : (s.blit x y rows).drawFlag = true := rfl

/-! ### `State.setRegs` -/

@[simp] theorem State.setRegs_mem (bs : List Byte) (k : Nat) : (s.setRegs k bs).mem = s.mem := by
  induction bs generalizing s k with
  | nil => rfl
  | cons b bs ih => exact ih _ _
@[simp] theorem State.setRegs_pc (bs : List Byte) (k : Nat) : (s.setRegs k bs).pc = s.pc := by
  induction bs generalizing s k with
  | nil => rfl
  | cons b bs ih => exact ih _ _
@[simp] theorem State.setRegs_I (bs : List Byte) (k : Nat) : (s.setRegs k bs).I = s.I := by
  induction bs generalizing s k with
  | nil => rfl
  | cons b bs ih => exact ih _ _
@[simp] theorem State.setRegs_stack (bs : List Byte) (k : Nat) : (s.setRegs k bs).stack = s.stack := by
  induction bs generalizing s k with
  | nil => rfl
  | cons b bs ih => exact ih _ _
@[simp] theorem State.setRegs_sp (bs : List Byte) (k : Nat) : (s.setRegs k bs).sp = s.sp := by
  induction bs generalizing s k with
  | nil => rfl
  | cons b bs ih => exact ih _ _
@[simp] theorem State.setRegs_key (bs : List Byte) (k : Nat) : (s.setRegs k bs).key = s.key := by
  induction bs generalizing s k with
  | nil => rfl
  | cons b bs ih => exact ih _ _
@[simp] theorem State.setRegs_DT (bs : List Byte) (k : Nat) : (s.setRegs k bs).DT = s.DT := by
  induction bs generalizing s k with
  | nil => rfl
  | cons b bs ih => exact ih _ _
@[simp] theorem State.setRegs_ST (bs : List Byte) (k : Nat) : (s.setRegs k bs).ST = s.ST := by
  induction bs generalizing s k with
  | nil => rfl
  | cons b bs ih => exact ih _ _
@[simp] theorem State.setRegs_fb (bs : List Byte) (k : Nat) : (s.setRegs k bs).fb = s.fb := by
  induction bs generalizing s k with
  | nil => rfl
  | cons b bs ih => exact ih _ _
@[simp] theorem State.setRegs_hiResMode (bs : List Byte) (k : Nat) : (s.setRegs k bs).hiResMode = s.hiResMode := by
  induction bs generalizing s k with
  | nil => rfl
  | cons b bs ih => exact ih _ _
@[simp] theorem State.setRegs_superChipMode (bs : List Byte) (k : Nat) : (s.setRegs k bs).superChipMode = s.superChipMode := by
  induction bs generalizing s k with
  | nil => rfl
  | cons b bs ih => exact ih _ _
@[simp] theorem State.setRegs_drawFlag (bs : List Byte) (k : Nat) : (s.setRegs k bs).drawFlag = s.drawFlag := by
  induction bs generalizing s k with
  | nil => rfl
  | cons b bs ih => exact ih _ _
@[simp] theorem State.setRegs_opcode (bs : List Byte) (k : Nat) : (s.setRegs k bs).opcode = s.opcode := by
  induction bs generalizing s k with
  | nil => rfl
  | cons b bs ih => exact ih _ _
@[simp] theorem State.setRegs_rng (bs : List Byte) (k : Nat) : (s.setRegs k bs).rng = s.rng := by
  induction bs generalizing s k with
  | nil => rfl
  | cons b bs ih => exact ih _ _
@[simp] theorem State.setRegs_halted (bs : List Byte) (k : Nat) : (s.setRegs k bs).halted = s.halted := by
  induction bs generalizing s k with
  | nil => rfl
  | cons b bs ih => exact ih _ _
@[simp] theorem State.setRegs_fault (bs : List Byte) (k : Nat) : (s.setRegs k bs).fault = s.fault := by
  induction bs generalizing s k with
  | nil => rfl
  | cons b bs ih => exact ih _ _
@[simp] theorem State.setRegs_config (bs : List Byte) (k : Nat) : (s.setRegs k bs).config = s.config := by
  induction bs generalizing s k with
  | nil => rfl
  | cons b bs ih => exact ih _ _
@[simp] theorem State.setRegs_keyDraws (bs : List Byte) (k : Nat) : (s.setRegs k bs).keyDraws = s.keyDraws := by
  induction bs generalizing s k with
  | nil => rfl
  | cons b bs ih => exact ih _ _

/-! ### `State.writeBytes` -/

@[simp] theorem State.writeBytes_V (bs : List Byte) (a : Nat) : (s.writeBytes a bs).V = s.V := by
  induction bs generalizing s a with
  | nil => rfl
  | cons b bs ih => exact ih _ _
@[simp] theorem State.writeBytes_pc (bs : List Byte) (a : Nat) : (s.writeBytes a bs).pc = s.pc := by
  induction bs generalizing s a with
  | nil => rfl
  | cons b bs ih => exact ih _ _
@[simp] theorem State.writeBytes_I (bs : List Byte) (a : Nat) : (s.writeBytes a bs).I = s.I := by
  induction bs generalizing s a with
  | nil => rfl
  | cons b bs ih => exact ih _ _
@[simp] theorem State.writeBytes_stack (bs : List Byte) (a : Nat) : (s.writeBytes a bs).stack = s.stack := by
  induction bs generalizing s a with
  | nil => rfl
  | cons b bs ih => exact ih _ _
@[simp] theorem State.writeBytes_sp (bs : List Byte) (a : Nat) : (s.writeBytes a bs).sp = s.sp := by
  induction bs generalizing s a with
  | nil => rfl
  | cons b bs ih => exact ih _ _
@[simp] theorem State.writeBytes_key (bs : List Byte) (a : Nat) : (s.writeBytes a bs).key = s.key := by
  induction bs generalizing s a with
  | nil => rfl
  | cons b bs ih => exact ih _ _
@[simp] theorem State.writeBytes_DT (bs : List Byte) (a : Nat) : (s.writeBytes a bs).DT = s.DT := by
  induction bs generalizing s a with
  | nil => rfl
  | cons b bs ih => exact ih _ _
@[simp] theorem State.writeBytes_ST (bs : List Byte) (a : Nat) : (s.writeBytes a bs).ST = s.ST := by
  induction bs generalizing s a with
  | nil => rfl
  | cons b bs ih => exact ih _ _
@[simp] theorem State.writeBytes_fb (bs : List Byte) (a : Nat) : (s.writeBytes a bs).fb = s.fb := by
  induction bs generalizing s a with
  | nil => rfl
  | cons b bs ih => exact ih _ _
@[simp] theorem State.writeBytes_hiResMode (bs : List Byte) (a : Nat) : (s.writeBytes a bs).hiResMode = s.hiResMode := by
  induction bs generalizing s a with
  | nil => rfl
  | cons b bs ih => exact ih _ _
@[simp] theorem State.writeBytes_superChipMode (bs : List Byte) (a : Nat) : (s.writeBytes a bs).superChipMode = s.superChipMode := by
  induction bs generalizing s a with
  | nil => rfl
  | cons b bs ih => exact ih _ _
@[simp] theorem State.writeBytes_drawFlag (bs : List Byte) (a : Nat) : (s.writeBytes a bs).drawFlag = s.drawFlag := by
  induction bs generalizing s a with
  | nil => rfl
  | cons b bs ih => exact ih _ _
@[simp] theorem State.writeBytes_opcode (bs : List Byte) (a : Nat) : (s.writeBytes a bs).opcode = s.opcode := by
  induction bs generalizing s a with
  | nil => rfl
  | cons b bs ih => exact ih _ _
@[simp] theorem State.writeBytes_rng (bs : List Byte) (a : Nat) : (s.writeBytes a bs).rng = s.rng := by
  induction bs generalizing s a with
  | nil => rfl
  | cons b bs ih => exact ih _ _
@[simp] theorem State.writeBytes_halted (bs : List Byte) (a : Nat) : (s.writeBytes a bs).halted = s.halted := by
  induction bs generalizing s a with
  | nil => rfl
  | cons b bs ih => exact ih _ _
@[simp] theorem State.writeBytes_fault (bs : List Byte) (a : Nat) : (s.writeBytes a bs).fault = s.fault := by
  induction bs generalizing s a with
  | nil => rfl
  | cons b bs ih => exact ih _ _
@[simp] theorem State.writeBytes_config (bs : List Byte) (a : Nat) : (s.writeBytes a bs).config = s.config := by
  induction bs generalizing s a with
  | nil => rfl
  | cons b bs ih => exact ih _ _
@[simp] theorem State.writeBytes_keyDraws (bs : List Byte) (a : Nat) : (s.writeBytes a bs).keyDraws = s.keyDraws := by
  induction bs generalizing s a with
  | nil => rfl
  | cons b bs ih => exact ih _ _

/-! ### `drawRandom` and `keySelect` -/

@[simp] theorem drawRandom_mem : (drawRandom s).2.mem = s.mem := rfl
@[simp] theorem drawRandom_V : (drawRandom s).2.V = s.V := rfl
@[simp] theorem drawRandom_pc : (drawRandom s).2.pc = s.pc := rfl
@[simp] theorem drawRandom_I : (drawRandom s).2.I = s.I := rfl
@[simp] theorem drawRandom_stack : (drawRandom s).2.stack = s.stack := rfl
@[simp] theorem drawRandom_sp : (drawRandom s).2.sp = s.sp := rfl
@[simp] theorem drawRandom_key : (drawRandom s).2.key = s.key := rfl
@[simp] theorem drawRandom_DT : (drawRandom s).2.DT = s.DT := rfl
@[simp] theorem drawRandom_ST : (drawRandom s).2.ST = s.ST := rfl
@[simp] theorem drawRandom_fb : (drawRandom s).2.fb = s.fb := rfl
@[simp] theorem drawRandom_hiResMode : (drawRandom s).2.hiResMode = s.hiResMode := rfl
@[simp] theorem drawRandom_superChipMode : (drawRandom s).2.superChipMode = s.superChipMode := rfl
@[simp] theorem drawRandom_drawFlag : (drawRandom s).2.drawFlag = s.drawFlag := rfl
@[simp] theorem drawRandom_opcode : (drawRandom s).2.opcode = s.opcode := rfl
@[simp] theorem drawRandom_rng : (drawRandom s).2.rng = (Config.rngNext s.rng).2 := rfl
@[simp] theorem drawRandom_halted : (drawRandom s).2.halted = s.halted := rfl
@[simp] theorem drawRandom_fault : (drawRandom s).2.fault = s.fault := rfl
@[simp] theorem drawRandom_config : (drawRandom s).2.config = s.config := rfl
@[simp] theorem drawRandom_keyDraws : (drawRandom s).2.keyDraws = s.keyDraws := rfl
@[simp] theorem keySelect_mem (k : Key) (ks : List Key) : (keySelect s k ks).2.mem = s.mem := by
  unfold keySelect; split <;> rfl
@[simp] theorem keySelect_V (k : Key) (ks : List Key) : (keySelect s k ks).2.V = s.V := by
  unfold keySelect; split <;> rfl
@[simp] theorem keySelect_pc (k : Key) (ks : List Key) : (keySelect s k ks).2.pc = s.pc := by
  unfold keySelect; split <;> rfl
@[simp] theorem keySelect_I (k : Key) (ks : List Key) : (keySelect s k ks).2.I = s.I := by
  unfold keySelect; split <;> rfl
@[simp] theorem keySelect_stack (k : Key) (ks : List Key) : (keySelect s k ks).2.stack = s.stack := by
  unfold keySelect; split <;> rfl
@[simp] theorem keySelect_sp (k : Key) (ks : List Key) : (keySelect s k ks).2.sp = s.sp := by
  unfold keySelect; split <;> rfl
@[simp] theorem keySelect_key (k : Key) (ks : List Key) : (keySelect s k ks).2.key = s.key := by
  unfold keySelect; split <;> rfl
@[simp] theorem keySelect_DT (k : Key) (ks : List Key) : (keySelect s k ks).2.DT = s.DT := by
  unfold keySelect; split <;> rfl
@[simp] theorem keySelect_ST (k : Key) (ks : List Key) : (keySelect s k ks).2.ST = s.ST := by
  unfold keySelect; split <;> rfl
@[simp] theorem keySelect_fb (k : Key) (ks : List Key) : (keySelect s k ks).2.fb = s.fb := by
  unfold keySelect; split <;> rfl
@[simp] theorem keySelect_hiResMode (k : Key) (ks : List Key) : (keySelect s k ks).2.hiResMode = s.hiResMode := by
  unfold keySelect; split <;> rfl
@[simp] theorem keySelect_superChipMode (k : Key) (ks : List Key) : (keySelect s k ks).2.superChipMode = s.superChipMode := by
  unfold keySelect; split <;> rfl
@[simp] theorem keySelect_drawFlag (k : Key) (ks : List Key) : (keySelect s k ks).2.drawFlag = s.drawFlag := by
  unfold keySelect; split <;> rfl
@[simp] theorem keySelect_opcode (k : Key) (ks : List Key) : (keySelect s k ks).2.opcode = s.opcode := by
  unfold keySelect; split <;> rfl
@[simp] theorem keySelect_rng (k : Key) (ks : List Key) : (keySelect s k ks).2.rng = s.rng := by
  unfold keySelect; split <;> rfl
@[simp] theorem keySelect_halted (k : Key) (ks : List Key) : (keySelect s k ks).2.halted = s.halted := by
  unfold keySelect; split <;> rfl
@[simp] theorem keySelect_fault (k : Key) (ks : List Key) : (keySelect s k ks).2.fault = s.fault := by
  unfold keySelect; split <;> rfl
@[simp] theorem keySelect_config (k : Key) (ks : List Key) : (keySelect s k ks).2.config = s.config := by
  unfold keySelect; split <;> rfl

end Sys2Proof.Machine
end

