-- ==== Sys2Proof/Laws/Memory.lean ====
section
/-! SUPPORT. Memory: read after write, the canonical form every operation keeps, and what the data accesses answer. -/

namespace Sys2Proof.Machine

section Canonical

variable {bg : Nat → Byte} {m : Memory} {a b : Nat} {v : Byte}

theorem Memory.read_insert : (Memory.insert a v m).read bg b = if b = a then v else m.read bg b := by
  induction m with
  | nil => simp [Memory.insert, Memory.read]
  | cons e m ih =>
    obtain ⟨k, c⟩ := e
    simp only [Memory.insert]
    split_ifs <;> simp only [Memory.read] <;> split_ifs <;> simp_all

theorem Memory.read_erase : (Memory.erase a m).read bg b = if b = a then bg a else m.read bg b := by
  by_cases hb : b = a
  · subst hb
    rw [if_pos rfl]
    induction m with
    | nil => rfl
    | cons e m ih =>
      obtain ⟨k, c⟩ := e
      simp only [Memory.erase, List.filter_cons] at ih ⊢
      split_ifs with hk
      · rw [Memory.read, if_neg (fun h => by simp [h] at hk), ih]
      · exact ih
  · rw [if_neg hb]
    induction m with
    | nil => rfl
    | cons e m ih =>
      obtain ⟨k, c⟩ := e
      simp only [Memory.erase, List.filter_cons] at ih ⊢
      split_ifs with hk
      · simp only [Memory.read, ih]
      · have : k = a := by simpa using hk
        rw [ih, Memory.read, if_neg (this ▸ hb)]

/-- A read after a write: the written byte at its address, every other byte as before. -/
theorem Memory.read_write : (m.write bg a v).read bg b = if b = a then v else m.read bg b := by
  unfold Memory.write
  by_cases h : v = bg a
  · rw [if_pos h, Memory.read_erase, h]
  · rw [if_neg h, Memory.read_insert]

theorem Memory.mem_insert {e : Host.Cell} (h : e ∈ Memory.insert a v m) : e = (a, v) ∨ e ∈ m := by
  induction m with
  | nil => simp [Memory.insert] at h; exact .inl h
  | cons c m ih =>
    obtain ⟨k, c⟩ := c
    simp only [Memory.insert] at h
    split_ifs at h
    · simpa using h
    · rcases List.mem_cons.mp h with h | h
      · exact .inl h
      · exact .inr (List.mem_cons_of_mem _ h)
    · rcases List.mem_cons.mp h with rfl | h
      · exact .inr List.mem_cons_self
      · exact (ih h).imp_right (List.mem_cons_of_mem _)

theorem Memory.pairwise_insert (h : m.Pairwise fun p q : Host.Cell => p.1 < q.1) :
    (Memory.insert a v m).Pairwise fun p q => p.1 < q.1 := by
  induction m with
  | nil => simp [Memory.insert]
  | cons c m ih =>
    obtain ⟨k, c⟩ := c
    rw [List.pairwise_cons] at h
    simp only [Memory.insert]
    split_ifs with h1 h2
    · exact .cons (fun e he => by
        rcases List.mem_cons.mp he with rfl | he
        · exact h1
        · exact h1.trans (h.1 e he)) (.cons h.1 h.2)
    · subst h2; exact .cons h.1 h.2
    · refine .cons (fun e he => ?_) (ih h.2)
      rcases Memory.mem_insert he with rfl | he
      · show k < a; omega
      · exact h.1 e he

/-- A write inside the 4096 bytes keeps the canonical form. -/
theorem Memory.wf_write (h : m.wf bg) (ha : a < Config.memSize) : (m.write bg a v).wf bg := by
  unfold Memory.write
  split_ifs with hv
  · exact ⟨h.1.filter _, fun e he => h.2 e (List.mem_of_mem_filter he)⟩
  · refine ⟨Memory.pairwise_insert h.1, fun e he => ?_⟩
    rcases Memory.mem_insert he with rfl | he
    · exact ⟨hv, ha⟩
    · exact h.2 e he

/-- An address below every listed one reads as its reset contents. -/
theorem Memory.read_of_lt (h : ∀ e ∈ m, a < e.1) : m.read bg a = bg a := by
  induction m with
  | nil => rfl
  | cons e m ih =>
    have := h e List.mem_cons_self
    rw [Memory.read, if_neg (by omega), ih fun e he => h e (List.mem_cons_of_mem _ he)]

theorem Memory.wf_nil : Memory.wf bg [] := by simp [Memory.wf]

end Canonical

section Bytes

variable {s t : State} {a b : Nat} {v : Byte} {vs : List Byte}

/-- A byte of memory depends on the memory and the parameters only. -/
theorem State.readByte_congr (hm : t.mem = s.mem) (hc : t.config = s.config) : t.readByte a = s.readByte a := by
  unfold State.readByte; rw [hm, hc]

theorem State.readByte_writeByte : (s.writeByte a v).readByte b = if b = a then v else s.readByte b :=
  Memory.read_write

/-- What a byte reads as after consecutive writes: the written byte inside the run, as before outside it. -/
theorem State.readByte_writeBytes :
    (s.writeBytes a vs).readByte b = if a ≤ b ∧ b < a + vs.length then vs.getD (b - a) 0 else s.readByte b := by
  induction vs generalizing s a with
  | nil => simp only [State.writeBytes, List.length_nil]; rw [if_neg (by omega)]
  | cons v vs ih =>
    simp only [State.writeBytes, ih, State.readByte_writeByte, List.length_cons]
    by_cases h : a = b
    · subst h; simp
    · rw [if_neg (Ne.symm h)]
      by_cases h2 : a + 1 ≤ b ∧ b < a + 1 + vs.length
      · rw [if_pos h2, if_pos (by omega), show b - a = (b - (a + 1)) + 1 by omega, List.getD_cons_succ]
      · rw [if_neg h2, if_neg (by omega)]

theorem State.wf_writeBytes (h : s.mem.wf (resetByte s.config)) (ha : a + vs.length ≤ Config.memSize) :
    (s.writeBytes a vs).mem.wf (resetByte s.config) := by
  induction vs generalizing s a with
  | nil => exact h
  | cons v vs ih =>
    simp only [List.length_cons] at ha
    exact ih (s := s.writeByte a v) (Memory.wf_write h (by omega)) (by omega)

/-- Writing bytes changes the memory only. -/
theorem State.writeBytes_eq (a : Nat) (vs : List Byte) :
    s.writeBytes a vs = { s with mem := (s.writeBytes a vs).mem } := by
  induction vs generalizing s a with
  | nil => rfl
  | cons v vs ih => rw [State.writeBytes, ih]; rfl

end Bytes

section Data

variable {s t : State} {a n : Nat} {v : Byte} {vs bs : List Byte} {f : Fault}

theorem dataRead_ok (h : a ≤ 0xFFF) : dataRead s a = .ok (s.readByte a) := by
  unfold dataRead; rw [if_neg (by omega)]

/-- Reads that all lie in range answer the bytes, in address order. -/
theorem dataReads_ok (h : a + n ≤ 0x1000) :
    dataReads s a n = .ok ((List.range n).map fun k => s.readByte (a + k)) := by
  induction n generalizing a with
  | zero => rfl
  | succ n ih =>
    simp only [dataReads, dataRead_ok (s := s) (show a ≤ 0xFFF by omega), ih (show a + 1 + n ≤ 0x1000 by omega),
      List.range_succ_eq_map, List.map_cons, List.map_map]
    congr 2
    refine List.map_congr_left fun k _ => ?_
    simp only [Function.comp, Nat.succ_eq_add_one]
    congr 1
    omega

/-- Reads of which one lies out of range fault, at the first such address. -/
theorem dataReads_error (h : 0x1000 < a + n) (hn : 0 < n) :
    dataReads s a n = .error (.memoryOutOfRange (max a 0x1000)) := by
  induction n generalizing a with
  | zero => omega
  | succ n ih =>
    simp only [dataReads]
    by_cases ha : a > 0xFFF
    · have : max a 0x1000 = a := by omega
      simp only [dataRead, if_pos ha, this]
    · rw [dataRead_ok (by omega), show (max a 0x1000) = max (a + 1) 0x1000 by omega]
      by_cases hn : n = 0
      · omega
      · simp only [ih (a := a + 1) (by omega) (by omega)]

theorem dataReads_length (h : dataReads s a n = .ok bs) : bs.length = n := by
  by_cases hr : a + n ≤ 0x1000
  · rw [dataReads_ok hr] at h; cases h; simp
  · by_cases hn : n = 0
    · subst hn; cases h; rfl
    · rw [dataReads_error (by omega) (by omega)] at h; cases h

/-- The font protection stops a write at `a`. -/
abbrev fontStops (s : State) (a : Nat) : Prop := s.config.fontWrite = .fault ∧ inFont s.config a = true

/-- Every one of the `n` addresses from `a` may be written. -/
abbrev writable (s : State) (a n : Nat) : Prop := ∀ k < n, a + k ≤ 0xFFF ∧ ¬ fontStops s (a + k)

theorem dataWrite_ok (h : a ≤ 0xFFF) (hf : ¬ fontStops s a) : dataWrite s a v = .ok (s.writeByte a v) := by
  unfold dataWrite; rw [if_neg (by omega), if_neg hf]

/-- Writes that are all allowed write their bytes, in address order. -/
theorem dataWrites_ok (h : writable s a vs.length) : dataWrites s a vs = .ok (s.writeBytes a vs) := by
  induction vs generalizing s a with
  | nil => rfl
  | cons v vs ih =>
    have h0 : a ≤ 0xFFF ∧ ¬ fontStops s a := h 0 (by simp)
    rw [dataWrites, dataWrite_ok h0.1 h0.2]
    refine ih (s := s.writeByte a v) (a := a + 1) fun k hk => ?_
    have := h (k + 1) (by simpa using hk)
    rw [show a + 1 + k = a + (k + 1) by omega]
    exact this

/-- Writes succeed only where every one of them is allowed. -/
theorem dataWrites_eq_ok (h : dataWrites s a vs = .ok t) : writable s a vs.length ∧ t = s.writeBytes a vs := by
  induction vs generalizing s a with
  | nil => cases h; exact ⟨fun k hk => absurd hk (by simp), rfl⟩
  | cons v vs ih =>
    simp only [dataWrites, dataWrite] at h
    split_ifs at h with h1 h2
    obtain ⟨hw, rfl⟩ := ih h
    refine ⟨fun k hk => ?_, rfl⟩
    rcases Nat.eq_zero_or_pos k with rfl | hk0
    · exact ⟨by omega, h2⟩
    · have := hw (k - 1) (by simp at hk; omega)
      rw [show a + 1 + (k - 1) = a + k by omega] at this
      exact this

/-- A failing run of writes reports its first forbidden address, range before font. -/
theorem dataWrites_eq_error (h : dataWrites s a vs = .error f) :
    ∃ k < vs.length, writable s a k ∧
      (a + k > 0xFFF ∧ f = .memoryOutOfRange (a + k) ∨ a + k ≤ 0xFFF ∧ fontStops s (a + k) ∧ f = .fontRegionWrite (a + k)) := by
  induction vs generalizing s a with
  | nil => cases h
  | cons v vs ih =>
    simp only [dataWrites, dataWrite] at h
    split_ifs at h with h1 h2
    · cases h; exact ⟨0, by simp, fun k hk => absurd hk (by omega), .inl ⟨h1, rfl⟩⟩
    · cases h; exact ⟨0, by simp, fun k hk => absurd hk (by omega), .inr ⟨by omega, h2, rfl⟩⟩
    · obtain ⟨k, hk, hw, hf⟩ := ih h
      refine ⟨k + 1, by simpa using hk, fun j hj => ?_, ?_⟩
      · rcases Nat.eq_zero_or_pos j with rfl | hj0
        · exact ⟨by omega, h2⟩
        · have := hw (j - 1) (by omega)
          rw [show a + 1 + (j - 1) = a + j by omega] at this
          exact this
      · rw [show a + 1 + k = a + (k + 1) by omega] at hf
        exact hf

theorem writeAllowed_iff : WriteAllowed s a ↔ a ≤ 0xFFF ∧ ¬ fontStops s a := by
  unfold WriteAllowed fontStops
  simp only [not_and, Bool.not_eq_true]

/-- The first forbidden write of a run is the one it faults on. -/
theorem dataWrites_first {k : Nat} (h : FirstForbidden s a vs.length k) :
    dataWrites s a vs = .error (writeFault (a + k)) := by
  obtain ⟨hk, h1, h2⟩ := h
  cases hd : dataWrites s a vs with
  | ok t => exact absurd (writeAllowed_iff.2 ((dataWrites_eq_ok hd).1 k hk)) h2
  | error f =>
    obtain ⟨j, hj, hw, hf⟩ := dataWrites_eq_error hd
    have hjk : j = k := by
      rcases Nat.lt_trichotomy j k with h | h | h
      · have := writeAllowed_iff.1 (h1 j h)
        rcases hf with ⟨ha, _⟩ | ⟨_, hb, _⟩
        · omega
        · exact absurd hb this.2
      · exact h
      · exact absurd (writeAllowed_iff.2 (hw k h)) h2
    subst hjk
    unfold writeFault
    rcases hf with ⟨ha, rfl⟩ | ⟨ha, _, rfl⟩
    · rw [if_pos ha]
    · rw [if_neg (by omega)]

/-- Data writes keep the canonical form. -/
theorem wf_dataWrites (h : s.mem.wf (resetByte s.config)) (hw : dataWrites s a vs = .ok t) :
    t.mem.wf (resetByte t.config) := by
  obtain ⟨hr, rfl⟩ := dataWrites_eq_ok hw
  rw [State.writeBytes_config]
  rcases vs with _ | ⟨v, vs⟩
  · exact h
  · have := (hr vs.length (by simp)).1
    exact State.wf_writeBytes h (by simp only [List.length_cons, Config.memSize]; omega)

theorem wf_reset : State.reset.mem.wf (resetByte State.reset.config) := Memory.wf_nil

end Data

end Sys2Proof.Machine
end

