-- ==== Sys2Proof/Laws/Ops.lean ====
section
/-! SUPPORT. What each shared operation does, said once: registers, stack, keypad, commit, fetch, the sprite blit. -/

namespace Sys2Proof.Machine

section Registers

variable {s t : State} {x y r : Reg} {v : Byte} {c : Bool}

theorem State.reg_congr (h : t.V = s.V) : t.reg r = s.reg r := by unfold State.reg; simp only [h]

theorem State.reg_setReg : (s.setReg x v).reg r = if r = x then v else s.reg r := by
  unfold State.reg State.setReg
  simp only [Vector.getElem_set, Fin.ext_iff]
  simp only [eq_comm]

@[simp] theorem State.reg_setReg_same : (s.setReg x v).reg x = v := by simp [State.reg_setReg]

/-- The flag is what stays in VF, and the result stays in V[X] when X is not 0xF (41_alu R120). -/
theorem State.reg_setResultFlag :
    (s.setResultFlag x v c).reg r = if r = VF then flagByte c else if r = x then v else s.reg r := by
  unfold State.setResultFlag; simp only [State.reg_setReg]

@[simp] theorem State.reg_latch (w : Word) : (s.latch w).reg r = s.reg r := rfl
@[simp] theorem State.reg_setPc (p : Word) : (s.setPc p).reg r = s.reg r := rfl
@[simp] theorem State.reg_setI (p : Word) : (s.setI p).reg r = s.reg r := rfl
@[simp] theorem State.reg_skipIf : (s.skipIf c).reg r = s.reg r := by cases c <;> rfl
@[simp] theorem State.reg_writeBytes (a : Nat) (bs : List Byte) : (s.writeBytes a bs).reg r = s.reg r :=
  State.reg_congr (by simp)

/-- Loaded registers: V[k] and on hold the bytes, every other register is as before. -/
theorem State.reg_setRegs {bs : List Byte} {k : Nat} :
    (s.setRegs k bs).reg r = if k ≤ r.val ∧ r.val < k + bs.length then bs.getD (r.val - k) 0 else s.reg r := by
  induction bs generalizing s k with
  | nil => simp only [State.setRegs, List.length_nil]; rw [if_neg (by omega)]
  | cons b bs ih =>
    simp only [State.setRegs, ih, List.length_cons]
    have hset : ({ s with V := s.V.setIfInBounds k b } : State).reg r = if k = r.val then b else s.reg r := by
      simp [State.reg, Vector.getElem_setIfInBounds]
    rw [hset]
    by_cases h : k = r.val
    · subst h; simp
    · rw [if_neg h]
      by_cases h2 : k + 1 ≤ r.val ∧ r.val < k + 1 + bs.length
      · rw [if_pos h2, if_pos (by omega), show r.val - k = (r.val - (k + 1)) + 1 by omega, List.getD_cons_succ]
      · rw [if_neg h2, if_neg (by omega)]

@[simp] theorem State.length_regsUpTo : (s.regsUpTo x).length = x.val + 1 := by
  simp only [State.regsUpTo, List.length_take, Vector.length_toList]
  have := x.isLt
  omega

theorem State.getD_regsUpTo (h : r ≤ x) : (s.regsUpTo x).getD r.val 0 = s.reg r := by
  have hr := r.isLt
  have hx : r.val < x.val + 1 := Nat.lt_succ_of_le h
  simp [State.regsUpTo, State.reg, List.getD_eq_getElem?_getD, hx]

theorem State.getD_toList_V : s.V.toList.getD r.val 0 = s.reg r := by
  simp [State.reg, List.getD_eq_getElem?_getD]

/-- A skip after the fetch's writes: pc is two past the instruction, or four. -/
theorem State.skipIf_latch (w : Word) :
    (s.latch w).skipIf c = { s.latch w with pc := if c then s.pc + 4 else s.pc + 2 } := by
  cases c
  · rfl
  · simp only [State.skipIf, if_true, State.setPc, State.latch_pc]
    rw [BitVec.add_assoc]; rfl

/-- Loading registers changes the registers only. -/
theorem State.setRegs_eq (k : Nat) (bs : List Byte) : s.setRegs k bs = { s with V := (s.setRegs k bs).V } := by
  induction bs generalizing s k with
  | nil => rfl
  | cons b bs ih => rw [State.setRegs, ih]

theorem immAddr_eq (nnn : BitVec 12) : immAddr nnn = BitVec.ofNat 16 nnn.toNat :=
  BitVec.eq_of_toNat_eq (by simp [immAddr])

end Registers

section Stack

variable {s t : State} {v : Word} {f : Fault}

theorem push_ok (h : s.sp.val < 16) :
    push s v = .ok { s with stack := s.stack.set s.sp.val v, sp := ⟨s.sp.val + 1, Nat.succ_lt_succ h⟩ } := dif_pos h

theorem push_full (h : s.sp.val = 16) : push s v = .error .stackOverflow := dif_neg (by omega)

/-- A pop answers the entry below `sp` and moves `sp` only (10_state R27, R28). -/
theorem pop_ok {k : Nat} (hk : k < 16) (h : s.sp.val = k + 1) :
    pop s = .ok (s.stack[k], { s with sp := ⟨k, by omega⟩ }) := by
  have h' : 0 < s.sp.val := by omega
  unfold pop
  rw [dif_pos h']
  simp [h]

theorem pop_empty (h : s.sp.val = 0) : pop s = .error .stackUnderflow := dif_neg (by omega)

/-- All a push that succeeds does. -/
theorem push_eq_ok (h : push s v = .ok t) : ∃ k : Fin 16, s.sp = k.castSucc ∧
    t = { s with stack := s.stack.set k.val v, sp := k.succ } := by
  unfold push at h
  split at h
  · cases h; exact ⟨⟨s.sp.val, ‹_›⟩, rfl, rfl⟩
  · cases h

theorem push_eq_error (h : push s v = .error f) : s.sp.val = 16 ∧ f = .stackOverflow := by
  unfold push at h
  split at h <;> cases h
  exact ⟨by have := s.sp.isLt; omega, rfl⟩

/-- All a pop that succeeds does. -/
theorem pop_eq_ok {r : Word × State} (h : pop s = .ok r) : ∃ k : Fin 16, s.sp = k.succ ∧
    r = (s.stack[k.val], { s with sp := k.castSucc }) := by
  unfold pop at h
  split at h <;> cases h
  rename_i h0
  have := s.sp.isLt
  exact ⟨⟨s.sp.val - 1, by omega⟩, Fin.ext (by simp; omega), rfl⟩

theorem pop_eq_error (h : pop s = .error f) : s.sp.val = 0 ∧ f = .stackUnderflow := by
  unfold pop at h
  split at h <;> cases h
  exact ⟨by omega, rfl⟩

end Stack

section Keypad

variable {s : State} {k : Key} {ks : List Key} {x : Reg}

theorem State.mem_heldKeys : k ∈ s.heldKeys ↔ s.keyHeld k = true := by simp [State.heldKeys]

/-- The chosen key is one of the held keys, under every KEY_SELECT (44_keypad_timer R181). -/
theorem keySelect_held : (keySelect s k ks).1 ∈ k :: ks := by
  unfold keySelect
  split
  · exact List.mem_cons_self
  · have h : Config.freeKey s.keyDraws % (ks.length + 1) < (k :: ks).length := Nat.mod_lt _ (Nat.succ_pos _)
    show (k :: ks).getD _ k ∈ _
    rw [List.getD_eq_getElem _ _ h]
    exact List.getElem_mem h

/-- Under KEY_SELECT = lowest the choice is the first held key and draws nothing. -/
theorem keySelect_lowest (h : s.config.keySelect = .lowest) : keySelect s k ks = (k, s) := by
  unfold keySelect; rw [h]

theorem keyOperand_ok {k : Key} (h : (s.reg x).toNat = k.val) : keyOperand s x = .ok k := by
  unfold keyOperand
  rw [dif_pos (by omega)]
  simp [h]

theorem keyOperand_error (h : 15 < (s.reg x).toNat) :
    keyOperand s x = .error (.keyIndexOutOfRange (s.reg x).toNat) := dif_neg (by omega)

theorem keyOperand_eq_ok {k : Key} (h : keyOperand s x = .ok k) : (s.reg x).toNat = k.val := by
  unfold keyOperand at h
  split at h <;> cases h
  rfl

theorem keyOperand_eq_error {f : Fault} (h : keyOperand s x = .error f) :
    15 < (s.reg x).toNat ∧ f = .keyIndexOutOfRange (s.reg x).toNat := by
  unfold keyOperand at h
  split at h <;> cases h
  exact ⟨by omega, rfl⟩

/-- No key is held exactly when the list of held keys is empty. -/
theorem State.heldKeys_eq_nil : s.heldKeys = [] ↔ ∀ k : Key, s.key[k.val] = false := by
  simp [State.heldKeys, State.keyHeld, List.filter_eq_nil_iff]

theorem State.heldKeys_sorted : s.heldKeys.Pairwise (· < ·) := (List.pairwise_lt_finRange 16).filter _

/-- Under KEY_SELECT = any a choice counts one draw and changes nothing else. -/
theorem keySelect_any (h : s.config.keySelect = .any) :
    (keySelect s k ks).2 = { s with keyDraws := s.keyDraws + 1 } := by
  unfold keySelect; rw [h]

end Keypad

section Commit

variable {i : Instr} {body : State → Except Fault State} {s t u : State} {f : Fault}

theorem commit_ok (h : body (s.latch (encode i)) = .ok t) : commit i body s = .next t := by
  unfold commit; rw [h]

theorem commit_error (h : body (s.latch (encode i)) = .error f) :
    commit i body s = .next (s.raise f (some (encode i))) := by
  unfold commit; rw [h]

/-- All a cycle can do: the body's state is committed, or the fault is taken from the state before the fetch. -/
theorem commit_cases (h : commit i body s = .next t) :
    body (s.latch (encode i)) = .ok t ∨
      ∃ f, body (s.latch (encode i)) = .error f ∧ t = s.raise f (some (encode i)) := by
  unfold commit at h
  split at h <;> cases h
  · exact .inl ‹_›
  · exact .inr ⟨_, ‹_›, rfl⟩

/-- Every cycle answers a next state. -/
theorem commit_total : ∃ t, commit i body s = .next t := by
  unfold commit; split <;> exact ⟨_, rfl⟩

end Commit

section Fetch

variable {s : State} {w : Word} {f : Fault}

/-- The fetch answers the big-endian word at pc exactly where its two checks pass (20_memory R52, R58, R59). -/
theorem fetchWord_eq_ok :
    fetchWord s = .ok w ↔ ¬ (s.config.oddFetch = .fault ∧ s.pc.getLsbD 0 = true) ∧ s.pc.toNat + 1 ≤ 0xFFF ∧
      w = bigEndian (s.readByte s.pc.toNat) (s.readByte (s.pc.toNat + 1)) := by
  unfold fetchWord
  split_ifs with h1 h2
  · simp [h1]
  · simp only [false_iff, not_and]
    intro _ h; omega
  · simp only [Except.ok.injEq, h1, not_false_eq_true, true_and]
    constructor
    · rintro rfl; exact ⟨by omega, rfl⟩
    · rintro ⟨_, rfl⟩; rfl

theorem fetchWord_eq_error (h : fetchWord s = .error f) : f = .misalignedFetch ∨ f = .fetchOutOfRange := by
  unfold fetchWord at h
  split_ifs at h <;> cases h <;> simp

theorem toNat_bigEndian (hi lo : Byte) : (bigEndian hi lo).toNat = hi.toNat * 256 + lo.toNat := by
  have := lo.isLt
  simp only [bigEndian, BitVec.toNat_append]
  rw [← Nat.shiftLeft_add_eq_or_of_lt this, Nat.shiftLeft_eq]

end Fetch

section Sprite

variable {fb : List Bool} {ps : List Nat} {c : Bool} {p : Nat}

@[simp] theorem length_flipPixels : (flipPixels fb c ps).1.length = fb.length := by
  induction ps generalizing fb c with
  | nil => rfl
  | cons p ps ih => simp [flipPixels, ih]

theorem pixel_set {q : Nat} {b : Bool} (h : q < fb.length) : pixel (fb.set q b) p = if q = p then b else pixel fb p := by
  simp only [pixel, List.getD_eq_getElem?_getD, List.getElem?_set]
  split_ifs <;> simp

/-- Each listed pixel is flipped once, every other pixel is as before. -/
theorem pixel_flipPixels (hn : ps.Nodup) (hb : ∀ q ∈ ps, q < fb.length) :
    pixel (flipPixels fb c ps).1 p = (pixel fb p ^^ decide (p ∈ ps)) := by
  induction ps generalizing fb c with
  | nil => simp [flipPixels]
  | cons q ps ih =>
    have hq := hb q List.mem_cons_self
    rw [List.nodup_cons] at hn
    rw [flipPixels, ih hn.2 (fun r hr => by simpa using hb r (List.mem_cons_of_mem _ hr)), pixel_set hq]
    by_cases h : q = p
    · subst h; simp [hn.1]
    · simp [h, Ne.symm h]

/-- The collision flag: one of the listed pixels was lit. -/
theorem collide_flipPixels (hn : ps.Nodup) (hb : ∀ q ∈ ps, q < fb.length) :
    (flipPixels fb c ps).2 = (c || ps.any (pixel fb)) := by
  induction ps generalizing fb c with
  | nil => simp [flipPixels]
  | cons q ps ih =>
    have hq := hb q List.mem_cons_self
    rw [List.nodup_cons] at hn
    have hany : ps.any (pixel (fb.set q (!pixel fb q))) = ps.any (pixel fb) := by
      rw [Bool.eq_iff_iff, List.any_eq_true, List.any_eq_true]
      refine exists_congr fun r => and_congr_right fun hr => ?_
      rw [pixel_set hq, if_neg (fun (h : q = r) => hn.1 (h ▸ hr))]
    rw [flipPixels, ih hn.2 (fun r hr => by simpa using hb r (List.mem_cons_of_mem _ hr)), hany, List.any_cons, Bool.or_assoc]

variable {h x0 y0 r : Nat} {row : Byte} {rows : List Byte}

theorem mem_rowPixels : p ∈ rowPixels h x0 y0 r row ↔ ∃ c < 8, row.getLsbD (7 - c) = true ∧ pixelIndex h x0 y0 r c = p := by
  simp [rowPixels, and_assoc]

theorem mem_spritePixels : p ∈ spritePixels h x0 y0 r rows ↔
    ∃ k < rows.length, ∃ c < 8, (rows.getD k 0).getLsbD (7 - c) = true ∧ pixelIndex h x0 y0 (r + k) c = p := by
  induction rows generalizing r with
  | nil => simp [spritePixels]
  | cons row rows ih =>
    rw [spritePixels, List.mem_append, mem_rowPixels, ih]
    constructor
    · rintro (hc | ⟨k, hk, hc⟩)
      · exact ⟨0, by simp, by simpa using hc⟩
      · exact ⟨k + 1, by simpa using hk, by simpa [Nat.add_assoc, Nat.add_comm 1 k] using hc⟩
    · rintro ⟨k, hk, hc⟩
      rcases k with _ | k
      · exact .inl (by simpa using hc)
      · exact .inr ⟨k, by simpa using hk, by simpa [Nat.add_assoc, Nat.add_comm 1 k] using hc⟩

/-- Two pixels of one sprite that fall on the same framebuffer pixel are the same pixel (42_display R151). -/
theorem pixelIndex_inj {k l c d : Nat} (hk : k < h) (hl : l < h) (hc : c < 8) (hd : d < 8)
    (he : pixelIndex h x0 y0 k c = pixelIndex h x0 y0 l d) : k = l ∧ c = d := by
  simp only [pixelIndex, Config.fbWidth] at he
  have h1 := Nat.mod_lt (x0 + c) (show 64 > 0 by decide)
  have h2 := Nat.mod_lt (x0 + d) (show 64 > 0 by decide)
  have hy : (y0 + k) % h = (y0 + l) % h := by omega
  have hx : (x0 + c) % 64 = (x0 + d) % 64 := by omega
  refine ⟨?_, by omega⟩
  have := Nat.ModEq.add_left_cancel' y0 (show y0 + k ≡ y0 + l [MOD h] from hy)
  rwa [Nat.ModEq, Nat.mod_eq_of_lt hk, Nat.mod_eq_of_lt hl] at this

theorem nodup_spritePixels (hr : r + rows.length ≤ h) : (spritePixels h x0 y0 r rows).Nodup := by
  induction rows generalizing r with
  | nil => exact List.nodup_nil
  | cons row rows ih =>
    simp only [List.length_cons] at hr
    rw [spritePixels, List.nodup_append]
    refine ⟨(List.nodup_range.filter _).map_on fun c hc d hd he => ?_, ih (by omega), fun p hp q hq hpq => ?_⟩
    · simp only [List.mem_filter, List.mem_range] at hc hd
      exact (pixelIndex_inj (by omega) (by omega) hc.1 hd.1 he).2
    · obtain ⟨c, hc, _, rfl⟩ := mem_rowPixels.mp hp
      obtain ⟨k, hk, d, hd, _, rfl⟩ := mem_spritePixels.mp hq
      have := (pixelIndex_inj (by omega) (by omega) hc hd hpq).1
      omega

theorem lt_of_mem_spritePixels (hh : 0 < h) (hp : p ∈ spritePixels h x0 y0 r rows) : p < Config.fbWidth * h := by
  obtain ⟨k, _, c, _, _, rfl⟩ := mem_spritePixels.mp hp
  have h1 := Nat.mod_lt (y0 + (r + k)) hh
  have h2 := Nat.mod_lt (x0 + c) (show 64 > 0 by decide)
  simp only [pixelIndex, Config.fbWidth]
  omega

theorem State.fbHeight_cases (s : State) : s.fbHeight = 64 ∨ s.fbHeight = 32 := by
  unfold State.fbHeight Config.fbHeight; split <;> simp

/-- What a blit writes: the screen, the draw flag and VF. -/
theorem State.blit_eq (s : State) (x y : Reg) (rows : List Byte) : s.blit x y rows =
    let r := flipPixels s.fb false (spritePixels s.fbHeight (spriteColumn s x) (spriteRow s y) 0 rows)
    { s with fb := r.1, drawFlag := true, V := s.V.set 15 (flagByte r.2) } := rfl

theorem State.reg_blit {s : State} {x y r : Reg} (h : r ≠ VF) : (s.blit x y rows).reg r = s.reg r := by
  unfold State.blit
  rw [State.reg_setReg, if_neg h]; rfl

/-- Two framebuffers of one length that agree pixel by pixel are equal. -/
theorem ext_pixel {l m : List Bool} (h : l.length = m.length) (hp : ∀ p < l.length, pixel l p = pixel m p) : l = m := by
  refine List.ext_getElem h fun p h1 h2 => ?_
  have := hp p h1
  rwa [pixel, pixel, List.getD_eq_getElem _ _ h1, List.getD_eq_getElem _ _ h2] at this

end Sprite

end Sys2Proof.Machine
end

