-- ==== Sys2Proof/Laws/PerInstr.lean ====
section
/-! SUPPORT. Statements about every instruction as syntax, one lemma per constructor. -/

namespace Sys2Proof.Laws.TableRow

/-- The word of an instruction carries the fixed bits of its row of the opcode table (30_encoding R88). -/
def Statement (i : Instr) : Prop := (opcodeRow i).holds (encode i) = true

theorem cls : Statement .cls := rfl

theorem ret : Statement .ret := rfl

theorem jp (nnn : BitVec 12) : Statement (.jp nnn) := decide_eq_true ((and_packNNN _ _).trans rfl)

theorem call (nnn : BitVec 12) : Statement (.call nnn) := decide_eq_true ((and_packNNN _ _).trans rfl)

theorem seByte (x : Reg) (nn : Byte) : Statement (.seByte x nn) := decide_eq_true ((and_packXNN _ _ _).trans rfl)

theorem sneByte (x : Reg) (nn : Byte) : Statement (.sneByte x nn) := decide_eq_true ((and_packXNN _ _ _).trans rfl)

theorem seReg (x y : Reg) (low : BitVec 4) : Statement (.seReg x y low) := decide_eq_true ((and_packXY0 _ _ _ _).trans rfl)

theorem ldByte (x : Reg) (nn : Byte) : Statement (.ldByte x nn) := decide_eq_true ((and_packXNN _ _ _).trans rfl)

theorem addByte (x : Reg) (nn : Byte) : Statement (.addByte x nn) := decide_eq_true ((and_packXNN _ _ _).trans rfl)

theorem ldReg (x y : Reg) : Statement (.ldReg x y) := decide_eq_true ((and_packXYS _ _ _ _).trans rfl)

theorem orReg (x y : Reg) : Statement (.orReg x y) := decide_eq_true ((and_packXYS _ _ _ _).trans rfl)

theorem andReg (x y : Reg) : Statement (.andReg x y) := decide_eq_true ((and_packXYS _ _ _ _).trans rfl)

theorem xorReg (x y : Reg) : Statement (.xorReg x y) := decide_eq_true ((and_packXYS _ _ _ _).trans rfl)

theorem addReg (x y : Reg) : Statement (.addReg x y) := decide_eq_true ((and_packXYS _ _ _ _).trans rfl)

theorem subReg (x y : Reg) : Statement (.subReg x y) := decide_eq_true ((and_packXYS _ _ _ _).trans rfl)

theorem shr (x y : Reg) : Statement (.shr x y) := decide_eq_true ((and_packXYS _ _ _ _).trans rfl)

theorem subn (x y : Reg) : Statement (.subn x y) := decide_eq_true ((and_packXYS _ _ _ _).trans rfl)

theorem shl (x y : Reg) : Statement (.shl x y) := decide_eq_true ((and_packXYS _ _ _ _).trans rfl)

theorem sneReg (x y : Reg) (low : BitVec 4) : Statement (.sneReg x y low) := decide_eq_true ((and_packXY0 _ _ _ _).trans rfl)

theorem ldI (nnn : BitVec 12) : Statement (.ldI nnn) := decide_eq_true ((and_packNNN _ _).trans rfl)

theorem jpV0 (nnn : BitVec 12) : Statement (.jpV0 nnn) := decide_eq_true ((and_packNNN _ _).trans rfl)

theorem rnd (x : Reg) (nn : Byte) : Statement (.rnd x nn) := decide_eq_true ((and_packXNN _ _ _).trans rfl)

theorem drw (x y : Reg) (n : Nat) : Statement (.drw x y n) := decide_eq_true ((and_packXY0 _ _ _ _).trans rfl)

theorem skp (x : Reg) : Statement (.skp x) := decide_eq_true ((and_packXSS _ _ _).trans rfl)

theorem sknp (x : Reg) : Statement (.sknp x) := decide_eq_true ((and_packXSS _ _ _).trans rfl)

theorem ldVxDT (x : Reg) : Statement (.ldVxDT x) := decide_eq_true ((and_packXSS _ _ _).trans rfl)

theorem ldVxK (x : Reg) : Statement (.ldVxK x) := decide_eq_true ((and_packXSS _ _ _).trans rfl)

theorem ldDTVx (x : Reg) : Statement (.ldDTVx x) := decide_eq_true ((and_packXSS _ _ _).trans rfl)

theorem ldSTVx (x : Reg) : Statement (.ldSTVx x) := decide_eq_true ((and_packXSS _ _ _).trans rfl)

theorem addI (x : Reg) : Statement (.addI x) := decide_eq_true ((and_packXSS _ _ _).trans rfl)

theorem ldF (x : Reg) : Statement (.ldF x) := decide_eq_true ((and_packXSS _ _ _).trans rfl)

theorem ldB (x : Reg) : Statement (.ldB x) := decide_eq_true ((and_packXSS _ _ _).trans rfl)

theorem dump (x : Reg) : Statement (.dump x) := decide_eq_true ((and_packXSS _ _ _).trans rfl)

theorem load (x : Reg) : Statement (.load x) := decide_eq_true ((and_packXSS _ _ _).trans rfl)

end Sys2Proof.Laws.TableRow
end

