-- ==== Sys2Proof/Laws/Step.lean ====
section
/-! SUPPORT. What a step, a request and a read of a byte after each update can do, said once. -/

namespace Sys2Proof.Machine

/-- All a step can do: nothing while halted; a fault of the fetch or of the decoder taken; or the cycle of the decoded
instruction. -/
theorem step_cases {s t : State} (h : step s = .next t) :
    (s.halted = true ∧ t = s) ∨
    (s.halted = false ∧ ∃ f, fetchWord s = .error f ∧ t = s.raise f none) ∨
    (s.halted = false ∧ ∃ w, fetchWord s = .ok w ∧ decode w = none ∧ t = s.raise .unknownOpcode (some w)) ∨
    (s.halted = false ∧ ∃ w i, fetchWord s = .ok w ∧ decode w = some i ∧ exec i s = .next t) := by
  unfold step at h
  split at h
  · cases h; exact .inl ⟨‹_›, rfl⟩
  · have hh : s.halted = false := Bool.eq_false_iff.mpr ‹_›
    split at h
    · cases h; exact .inr (.inl ⟨hh, _, ‹_›, rfl⟩)
    · split at h
      · cases h; exact .inr (.inr (.inl ⟨hh, _, ‹_›, ‹_›, rfl⟩))
      · exact .inr (.inr (.inr ⟨hh, _, _, ‹_›, ‹_›, h⟩))

/-- Every instruction's cycle is one commit of its own body. -/
theorem exec_eq_commit (i : Instr) : ∃ body, ∀ s, exec i s = commit i body s := by
  cases i <;> simp only [exec, execCls, execRet, execJp, execCall, execSeByte, execSneByte, execSeReg, execLdByte,
    execAddByte, execLdReg, execOrReg, execAndReg, execXorReg, execAddReg, execSubReg, execShr, execSubn, execShl,
    execSneReg, execLdI, execJpV0, execRnd, execDrw, execSkp, execSknp, execLdVxDT, execLdVxK, execLdDTVx, execLdSTVx,
    execAddI, execLdF, execLdB, execDump, execLoad] <;> exact ⟨_, fun _ => rfl⟩

/-- Every instruction's cycle answers a next state. -/
theorem exec_total (i : Instr) (s : State) : ∃ t, exec i s = .next t := by
  obtain ⟨body, h⟩ := exec_eq_commit i
  rw [h]; exact commit_total

theorem odd_iff (w : Word) : w.getLsbD 0 = true ↔ w.toNat % 2 = 1 := by
  simp [BitVec.getLsbD]

/-- The words claims call fetched are those the fetch answers. -/
theorem fetchesWord_iff {s : State} {w : Word} : FetchesWord s w ↔ s.halted = false ∧ fetchWord s = .ok w := by
  unfold FetchesWord
  rw [fetchWord_eq_ok, odd_iff]
  refine and_congr_right fun _ => ⟨?_, ?_⟩
  · rintro ⟨a, b, c⟩
    refine ⟨?_, b, BitVec.eq_of_toNat_eq (by rw [c, toNat_bigEndian])⟩
    rintro ⟨h1, h2⟩; have := a h1; omega
  · rintro ⟨a, b, c⟩
    refine ⟨fun h => ?_, b, by rw [c, toNat_bigEndian]⟩
    by_contra h2; exact a ⟨h, by omega⟩

theorem runs_iff {s : State} {i : Instr} :
    Runs s i ↔ s.halted = false ∧ ∃ w, fetchWord s = .ok w ∧ decode w = some i := by
  simp [Runs, fetchesWord_iff, and_assoc]

theorem step_of_runs {s : State} {i : Instr} (h : Runs s i) : step s = exec i s := by
  obtain ⟨a, w, b, c⟩ := runs_iff.1 h
  simp [step, a, b, c]

section Bytes

variable (s : State) (a : Nat)

@[simp] theorem State.readByte_latch (w : Word) : (s.latch w).readByte a = s.readByte a := rfl
@[simp] theorem State.readByte_setReg (r : Reg) (v : Byte) : (s.setReg r v).readByte a = s.readByte a := rfl
@[simp] theorem State.readByte_setPc (p : Word) : (s.setPc p).readByte a = s.readByte a := rfl
@[simp] theorem State.readByte_setI (v : Word) : (s.setI v).readByte a = s.readByte a := rfl
@[simp] theorem State.readByte_raise (f : Fault) (w : Option Word) : (s.raise f w).readByte a = s.readByte a := rfl
@[simp] theorem State.readByte_setResultFlag (x : Reg) (v : Byte) (c : Bool) :
    (s.setResultFlag x v c).readByte a = s.readByte a := rfl
@[simp] theorem State.readByte_clearScreen : s.clearScreen.readByte a = s.readByte a := rfl
@[simp] theorem State.readByte_skipIf (c : Bool) : (s.skipIf c).readByte a = s.readByte a := by cases c <;> rfl
@[simp] theorem State.readByte_blit (x y : Reg) (rows : List Byte) : (s.blit x y rows).readByte a = s.readByte a := rfl
@[simp] theorem State.readByte_setRegs (k : Nat) (bs : List Byte) : (s.setRegs k bs).readByte a = s.readByte a :=
  State.readByte_congr (by simp) (by simp)

end Bytes

section Timers

theorem toNat_countDown (t : Byte) : (countDown t).toNat = t.toNat - 1 := by
  unfold countDown
  split_ifs with h
  · rw [BitVec.toNat_sub_of_le (by rw [BitVec.le_def]; exact h)]; rfl
  · omega

end Timers

/-- The bytes of a word, put together again, are the word. -/
theorem bigEndian_wordBytes (w : Word) : bigEndian (highByte w) (lowByte w) = w := by
  refine BitVec.eq_of_toNat_eq ?_
  have := w.isLt
  rw [toNat_bigEndian]
  simp only [highByte, lowByte, BitVec.extractLsb'_toNat, Nat.shiftRight_eq_div_pow]
  omega

end Sys2Proof.Machine
end

