-- ==== Sys2Proof/Tests/Slice0.lean ====
section
/-! SUPPORT. Tests: the syntax check, words written out from the encodings, the spec's own vectors (95_test_vectors), and a
witness for the hypotheses of every statement. Each runs at most one step or one request. -/

namespace Sys2Proof.Tests

open Sys2Proof.Machine

/-! ## Helpers -/

/-- The reset state with registers set. -/
def withV (vs : List (Reg × Byte)) : State := vs.foldl (fun s p => s.setReg p.1 p.2) State.reset

/-- `withV` with the index register set too. -/
def withI (i : Word) (vs : List (Reg × Byte)) : State := (withV vs).setI i

/-- The reset state with one hex key held. -/
def withKey (k : Key) (vs : List (Reg × Byte)) : State := { withV vs with key := State.reset.key.set k.val true }

/-- The reset state with a parameter changed. -/
def withConfig (f : Config → Config) : State := { State.reset with config := f Config.default }

/-- The state after the one step that runs the word `w` placed where `s` fetches. -/
def run (s : State) (w : Nat) : Option State := nextState (step (s.withFetchWord 16 w))

/-- Some fields of the state after that step. -/
def runs {α : Type} (s : State) (w : Nat) (f : State → α) : Option α := (run s w).map f

/-- The fault record after that step, with the program counter. -/
def faults (s : State) (w : Nat) : Option (Bool × Option FaultRecord × Word × Word) :=
  runs s w fun t => (t.halted, t.fault, t.pc, t.opcode)

/-! ## The one check of `Instr.wellFormed` -/

theorem test_wellFormed_refuses_sixteen_rows : (Instr.drw 0 0 16).wellFormed = false := by decide

theorem test_wellFormed_takes_fifteen_rows : (Instr.drw 15 15 15).wellFormed = true := by decide

/-! ## Decoding: words written out from spec/opcode_table.json's bits (30_encoding R72, R74) -/

theorem test_decode_family_0 :
    decode 0b0000_0000_1110_0000#16 = some .cls ∧
    decode 0b0000_0000_1110_1110#16 = some .ret := by decide

theorem test_decode_families_1_2_A_B :
    decode 0b0001_0010_1010_1000#16 = some (.jp 0x2A8) ∧
    decode 0b0010_0010_0000_1000#16 = some (.call 0x208) ∧
    decode 0b1010_0011_0000_0000#16 = some (.ldI 0x300) ∧
    decode 0b1011_0101_0000_0001#16 = some (.jpV0 0x501) := by decide

theorem test_decode_families_3_4_6_7_C :
    decode 0b0011_0011_0100_0010#16 = some (.seByte 3 0x42) ∧
    decode 0b0100_0011_0100_0010#16 = some (.sneByte 3 0x42) ∧
    decode 0b0110_1010_0000_0010#16 = some (.ldByte 0xA 0x02) ∧
    decode 0b0111_0001_1111_1110#16 = some (.addByte 1 0xFE) ∧
    decode 0b1100_0001_1111_0000#16 = some (.rnd 1 0xF0) := by decide

theorem test_decode_families_5_9_D :
    decode 0b0101_0001_0010_0001#16 = some (.seReg 1 2 1) ∧
    decode 0b1001_0001_0010_0000#16 = some (.sneReg 1 2 0) ∧
    decode 0b1101_0001_0010_0101#16 = some (.drw 1 2 5) := by decide

theorem test_decode_family_8 :
    decode 0b1000_0001_0010_0000#16 = some (.ldReg 1 2) ∧
    decode 0b1000_0001_0010_0001#16 = some (.orReg 1 2) ∧
    decode 0b1000_0001_0010_0010#16 = some (.andReg 1 2) ∧
    decode 0b1000_0001_0010_0011#16 = some (.xorReg 1 2) ∧
    decode 0b1000_0001_0010_0100#16 = some (.addReg 1 2) ∧
    decode 0b1000_0001_0010_0101#16 = some (.subReg 1 2) ∧
    decode 0b1000_0001_0010_0110#16 = some (.shr 1 2) ∧
    decode 0b1000_0001_0010_0111#16 = some (.subn 1 2) ∧
    decode 0b1000_0001_0010_1110#16 = some (.shl 1 2) := by decide

theorem test_decode_family_E :
    decode 0b1110_0101_1001_1110#16 = some (.skp 5) ∧
    decode 0b1110_0101_1010_0001#16 = some (.sknp 5) := by decide

theorem test_decode_family_F :
    decode 0b1111_0011_0000_0111#16 = some (.ldVxDT 3) ∧
    decode 0b1111_0011_0000_1010#16 = some (.ldVxK 3) ∧
    decode 0b1111_0011_0001_0101#16 = some (.ldDTVx 3) ∧
    decode 0b1111_0011_0001_1000#16 = some (.ldSTVx 3) ∧
    decode 0b1111_0011_0001_1110#16 = some (.addI 3) ∧
    decode 0b1111_0011_0010_1001#16 = some (.ldF 3) ∧
    decode 0b1111_0011_0011_0011#16 = some (.ldB 3) ∧
    decode 0b1111_0011_0101_0101#16 = some (.dump 3) ∧
    decode 0b1111_0011_0110_0101#16 = some (.load 3) := by decide

/-- DEC1 to DEC7: unknown words. -/
theorem test_decode_unknown : [0x0000, 0x0123, 0x00E1, 0x8008, 0x800F, 0xE09F, 0xF000, 0xF0FF, 0xFFFF].map
    (fun w : Word => decode w) = List.replicate 9 none := by decide

/-- The rows of spec/opcode_table.json, match and mask. -/
theorem test_opcodeTable_is_the_json : opcodeTable.map (fun r => (r.fixed, r.mask)) =
    [(0x00E0, 0xFFFF), (0x00EE, 0xFFFF), (0x1000, 0xF000), (0x2000, 0xF000), (0x3000, 0xF000), (0x4000, 0xF000), (0x5000, 0xF000)] ++
    [(0x6000, 0xF000), (0x7000, 0xF000), (0x8000, 0xF00F), (0x8001, 0xF00F), (0x8002, 0xF00F), (0x8003, 0xF00F), (0x8004, 0xF00F)] ++
    [(0x8005, 0xF00F), (0x8006, 0xF00F), (0x8007, 0xF00F), (0x800E, 0xF00F), (0x9000, 0xF000), (0xA000, 0xF000), (0xB000, 0xF000)] ++
    [(0xC000, 0xF000), (0xD000, 0xF000), (0xE09E, 0xF0FF), (0xE0A1, 0xF0FF), (0xF007, 0xF0FF), (0xF00A, 0xF0FF), (0xF015, 0xF0FF)] ++
    [(0xF018, 0xF0FF), (0xF01E, 0xF0FF), (0xF029, 0xF0FF), (0xF033, 0xF0FF), (0xF055, 0xF0FF), (0xF065, 0xF0FF)] := by decide

/-- The bytes stand big-endian (20_memory R52), and bytes after the word are left over. -/
theorem test_decodeBytes : decodeBytes [0x6A, 0x02, 0xFF] = .instr (.ldByte 0xA 0x02) [0xFF] ∧
    decodeBytes [0x00, 0x00] = .unknownOpcode 0x0000 ∧ decodeBytes [0x6A] = .truncated := by decide

/-! ## One step each: the derived vectors of 95_test_vectors section 2, named by their rows -/

/-- A fault record as 95_test_vectors writes it, with pc and `opcode` as they were. -/
def faultAt (f : Fault) (w : Option Word) (pc : Word) : Option (Bool × Option FaultRecord × Word × Word) :=
  some (true, some { cause := f, opcode := w, address := pc }, pc, 0x0000)

theorem test_DEC1 : faults State.reset 0x0123 = faultAt .unknownOpcode (some 0x0123) 0x200 := by decide

theorem test_DEC8 : (nextState (step (State.reset.setPc 0x3FF))).map (fun t => (t.halted, t.fault)) =
    some (true, some { cause := .misalignedFetch, opcode := none, address := 0x3FF }) := by decide

theorem test_DEC9 : runs ({ withConfig (fun c => { c with oddFetch := .allow }) with pc := 0x3FF }) 0x6123 (fun t => (t.reg 1, t.pc)) =
    some (0x23, 0x401) := by decide

theorem test_DEC10 : runs (State.reset.setPc 0xFFE) 0x6001 (fun t => (t.reg 0, t.pc, t.halted)) = some (0x01, 0x1000, false) := by decide

theorem test_DEC11 : (nextState (step (State.reset.setPc 0x1000))).map (fun t => (t.halted, t.fault)) =
    some (true, some { cause := .fetchOutOfRange, opcode := none, address := 0x1000 }) := by decide

theorem test_CF1 : runs State.reset 0x1228 (fun t => (t.pc, t.opcode)) = some (0x228, 0x1228) := by decide

theorem test_CF4 : runs State.reset 0x2208 (fun t => (t.stack[0], t.sp, t.pc)) = some (0x202, 1, 0x208) := by decide

theorem test_CF5 : runs { State.reset with pc := 0x208, sp := 1, stack := State.reset.stack.set 0 0x202 } 0x00EE
    (fun t => (t.sp, t.pc, t.stack[0])) = some (0, 0x202, 0x202) := by decide

theorem test_CF6 : faults State.reset 0x00EE = faultAt .stackUnderflow (some 0x00EE) 0x200 := by decide

theorem test_CF7 : faults { State.reset with sp := 16 } 0x2200 = faultAt .stackOverflow (some 0x2200) 0x200 := by decide

theorem test_CF8 : runs (withV [(3, 0x42)]) 0x3342 (·.pc) = some 0x204 := by decide

theorem test_CF9 : runs (withV [(3, 0x41)]) 0x3342 (·.pc) = some 0x202 := by decide

theorem test_CF10 : runs (withV [(3, 0x41)]) 0x4342 (·.pc) = some 0x204 := by decide

theorem test_CF11 : runs (withV [(3, 0x42)]) 0x4342 (·.pc) = some 0x202 := by decide

theorem test_CF12 : runs (withV [(1, 7), (2, 7)]) 0x5121 (·.pc) = some 0x204 := by decide

theorem test_CF13 : runs (withV [(1, 7), (2, 8)]) 0x9120 (·.pc) = some 0x204 := by decide

theorem test_CF14 : runs (withV [(1, 7)]) 0x9110 (·.pc) = some 0x202 := by decide

theorem test_CF16 : runs (withV [(0, 0xFF)]) 0xBFFF (·.pc) = some 0x10FE := by decide

theorem test_CF17 : runs (withV [(0, 0x04), (5, 0x20)]) 0xB500 (·.pc) = some 0x504 := by decide

theorem test_ALU3 : runs (withV [(0, 0xFF), (1, 0xFF)]) 0x8014 (fun t => (t.reg 0, t.reg 15)) = some (0xFE, 1) := by decide

theorem test_ALU5 : runs (withV [(15, 0xFF), (2, 0x02)]) 0x8F24 (fun t => t.reg 15) = some 1 := by decide

theorem test_ALU7 : runs (withV [(0, 0x07), (1, 0x07)]) 0x8015 (fun t => (t.reg 0, t.reg 15)) = some (0, 0) := by decide

theorem test_E2 : runs (withV [(0, 0x03), (1, 0x05)]) 0x8015 (fun t => (t.reg 0, t.reg 15)) = some (0xFE, 0) := by decide

theorem test_ALU9 : runs (withV [(0, 0x03), (1, 0x05)]) 0x8017 (fun t => (t.reg 0, t.reg 15)) = some (0x02, 1) := by decide

theorem test_ALU10 : runs (withV [(0, 0x05), (1, 0x03)]) 0x8017 (fun t => (t.reg 0, t.reg 15)) = some (0xFE, 0) := by decide

theorem test_ALU14 : runs (withV [(15, 0x03)]) 0x8F06 (fun t => t.reg 15) = some 1 := by decide

theorem test_ALU18 : runs (withV [(0, 0x81), (5, 0xFF)]) 0x8056 (fun t => (t.reg 0, t.reg 5, t.reg 15)) = some (0x40, 0xFF, 1) := by decide

theorem test_ALU15 : runs (withV [(0, 0xC1)]) 0x800E (fun t => (t.reg 0, t.reg 15)) = some (0x82, 1) := by decide

theorem test_ALU16 : runs (withV [(0, 0x7F)]) 0x800E (fun t => (t.reg 0, t.reg 15)) = some (0xFE, 0) := by decide

theorem test_ALU19 : runs (withV [(0, 0xF0), (1, 0x0F), (15, 0x55)]) 0x8011 (fun t => (t.reg 0, t.reg 15)) = some (0xFF, 0x55) := by decide

theorem test_ALU20 : runs (withV [(0, 0xF0), (1, 0x3C), (15, 0x55)]) 0x8012 (fun t => (t.reg 0, t.reg 15)) = some (0x30, 0x55) := by decide

theorem test_ALU21 : runs (withV [(0, 0xFF), (1, 0x0F), (15, 0x55)]) 0x8013 (fun t => (t.reg 0, t.reg 15)) = some (0xF0, 0x55) := by decide

theorem test_ALU22 : runs (withV [(0, 0x01), (1, 0x99)]) 0x8010 (fun t => (t.reg 0, t.reg 1)) = some (0x99, 0x99) := by decide

theorem test_ALU23 : runs State.reset 0x6A02 (fun t => (t.reg 0xA, t.pc, t.opcode)) = some (0x02, 0x202, 0x6A02) := by decide

theorem test_ALU24 : runs (withV [(0, 0x01), (15, 0x55)]) 0x70FF (fun t => (t.reg 0, t.reg 15)) = some (0x00, 0x55) := by decide

/-- `CXNN` with a free generator: the fields the spec fixes. -/
theorem test_ALU26 : runs State.reset 0xC000 (fun t => (t.pc, t.halted)) = some (0x202, false) := by decide

theorem test_DSP3 : runs (((withI 0x300 [(0, 63)]).writeByte 0x300 0xC0)) 0xD011
    (fun t => (t.fb[63]?, t.fb[0]?, t.fb[62]?, t.reg 15, t.drawFlag)) = some (some true, some true, some false, 0, true) := by decide +kernel

theorem test_DSP8 : (faults (withI 0xFFF []) 0xD012 = faultAt (.memoryOutOfRange 0x1000) (some 0xD012) 0x200) := by decide

theorem test_DSP10 : runs { State.reset with fb := [true, false, true] } 0x00E0 (fun t => (t.fb, t.drawFlag)) =
    some ([false, false, false], true) := by decide

theorem test_MEM1 : runs State.reset 0xA300 (·.I) = some 0x300 := by decide

theorem test_MEM3 : runs (withI 0xFFFF [(2, 0x02), (15, 0x07)]) 0xF21E (fun t => (t.I, t.reg 15)) = some (0x0001, 0x07) := by decide

theorem test_MEM4 : runs (withI 0x0FFF [(2, 0x01)]) 0xF21E (fun t => (t.I, t.halted)) = some (0x1000, false) := by decide

theorem test_MEM6 : runs (withV [(0, 0x1F)]) 0xF029 (·.I) = some 0x04B := by decide

theorem test_MEM7 : runs { withConfig (fun c => { c with fontBase := .at050 }) with V := (withV [(0, 0x03)]).V } 0xF029 (·.I) = some 0x05F := by decide

theorem test_MEM13 : runs (withI 0x300 [(5, 0x9C)]) 0xF533
    (fun t => (t.readByte 0x300, t.readByte 0x301, t.readByte 0x302, t.I)) = some (1, 5, 6, 0x300) := by decide

theorem test_MEM14 : faults (withI 0x04E [(0, 1)]) 0xF033 = faultAt (.fontRegionWrite 0x04E) (some 0xF033) 0x200 := by decide

theorem test_MEM18 : runs (withI 0x400 [(0, 1), (1, 2), (2, 3), (3, 4)]) 0xF255
    (fun t => (t.readByte 0x400, t.readByte 0x401, t.readByte 0x402, t.readByte 0x403, t.I)) = some (1, 2, 3, 0, 0x400) := by decide

theorem test_MEM19 : faults (withI 0xFFE [(0, 1), (1, 2), (2, 3)]) 0xF255 = faultAt (.memoryOutOfRange 0x1000) (some 0xF255) 0x200 := by decide

theorem test_MEM21 : runs State.reset 0xFF65 (fun t => t.V.toList) =
    some [0xF0, 0x90, 0x90, 0x90, 0xF0, 0x20, 0x60, 0x20, 0x20, 0x70, 0xF0, 0x10, 0xF0, 0x80, 0xF0, 0xF0] := by decide

theorem test_MEM22 : faults (withI 0xFFF []) 0xF165 = faultAt (.memoryOutOfRange 0x1000) (some 0xF165) 0x200 := by decide

theorem test_KEY1 : runs (withKey 5 [(1, 5)]) 0xE19E (·.pc) = some 0x204 := by decide

theorem test_KEY5 : faults (withV [(1, 0x10)]) 0xE19E = faultAt (.keyIndexOutOfRange 0x10) (some 0xE19E) 0x200 := by decide

theorem test_KEY3 : runs (withV [(1, 5)]) 0xE1A1 (·.pc) = some 0x204 := by decide

theorem test_KEY4 : runs (withKey 5 [(1, 5)]) 0xE1A1 (·.pc) = some 0x202 := by decide

theorem test_KEY6 : runs (State.reset.setPc 0x210) 0xF50A (fun t => (t.pc, t.opcode)) = some (0x210, 0xF50A) := by decide

theorem test_KEY7 : runs { State.reset with pc := 0x210, key := (State.reset.key.set 9 true).set 3 true } 0xF50A
    (fun t => (t.reg 5, t.pc)) = some (3, 0x212) := by decide

theorem test_KEY9 : runs { State.reset with DT := 0x3C } 0xF307 (fun t => t.reg 3) = some 0x3C := by decide

theorem test_KEY10 : runs (withV [(0, 0x3C)]) 0xF015 (·.DT) = some 0x3C := by decide

theorem test_KEY11 : runs (withV [(0, 0x02)]) 0xF018 (fun t => (t.ST, t.soundActive)) = some (2, true) := by decide

/-- KEY12, KEY14, KEY15. -/
theorem test_KEY12_KEY14 : ({ State.reset with DT := 5, ST := 0 } : State).tick.DT = 4 ∧ ({ State.reset with DT := 0 } : State).tick.DT = 0 ∧
    ({ State.reset with DT := 5, halted := true } : State).tick.DT = 5 := by decide

/-- 70_reset R243, R244. -/
theorem test_load_too_large : (State.reset.load (List.replicate 3585 0)).1 = .programTooLarge ∧ (State.reset.load [0x6A, 0x02]).1 = .ok := by decide +kernel

/-! ## Witnesses: concrete inputs that meet the hypotheses of each statement -/
theorem witness_DecodeReadsBackEncode : (Instr.drw 15 15 15).wellFormed = true ∧ (Instr.seReg 15 15 0xF).wellFormed = true := by
  decide

theorem witness_EncodeGivesBackTheWord : decode 0x9FFF#16 = some (.sneReg 15 15 0xF) ∧ decode 0xDFFF#16 = some (.drw 15 15 15) := by
  decide

/-- The shapes of the `EncodedBy` clauses, each at a word of its own. -/
theorem witness_EncodedBy : [0x1FFF, 0x2000, 0x3FFF, 0x4000, 0x5FFF, 0x6000, 0x7FFF, 0x9000, 0xAFFF, 0xB000, 0xCFFF, 0xD000].map
      (fun w : Word => family w) = [1, 2, 3, 4, 5, 6, 7, 9, 0xA, 0xB, 0xC, 0xD] ∧
    [0x8FF0, 0x8001, 0x8FF2, 0x8003, 0x8FF4, 0x8005, 0x8FF6, 0x8007, 0x8FFE].map
      (fun w : Word => (family w, fieldN w)) = [(8, 0), (8, 1), (8, 2), (8, 3), (8, 4), (8, 5), (8, 6), (8, 7), (8, 0xE)] ∧
    [0xEF9E, 0xE0A1, 0xFF07, 0xF00A, 0xFF15, 0xF018, 0xFF1E, 0xF029, 0xFF33, 0xF055, 0xFF65].map
      (fun w : Word => (family w, (fieldNN w).toNat)) = [(0xE, 0x9E), (0xE, 0xA1), (0xF, 0x07), (0xF, 0x0A), (0xF, 0x15),
        (0xF, 0x18), (0xF, 0x1E), (0xF, 0x29), (0xF, 0x33), (0xF, 0x55), (0xF, 0x65)] := by decide

/-- A state whose next word is `6A02`. -/
def atLoad : State := State.reset.writeBytes 0x200 [0x6A, 0x02]

theorem fetches_atLoad : FetchesWord atLoad 0x6A02 := by unfold FetchesWord; decide

theorem witness_StepFollowsTheCycle :
    ({ State.reset with halted := true } : State).halted = true ∧
    ((State.reset.setPc 0xFFF).halted = false ∧ (State.reset.setPc 0xFFF).config.oddFetch = .fault ∧
      (State.reset.setPc 0xFFF).pc.toNat % 2 = 1) ∧
    ((State.reset.setPc 0x1000).halted = false ∧
      ((State.reset.setPc 0x1000).config.oddFetch = .fault → (State.reset.setPc 0x1000).pc.toNat % 2 = 0) ∧
      0xFFF < (State.reset.setPc 0x1000).pc.toNat + 1) ∧
    (FetchesWord State.reset 0x0000 ∧ decode 0x0000 = none) ∧
    (FetchesWord (State.reset.setPc 0xFFE) 0x0000 ∧ decode 0x0000 = none) ∧
    (FetchesWord atLoad 0x6A02 ∧ decode 0x6A02 = some (.ldByte 0xA 0x02)) := by unfold FetchesWord; decide

theorem witness_StepRunsTheDecodedInstruction :
    (Instr.ldByte 0xA 0x02).wellFormed = true ∧ atLoad.halted = false ∧ (atLoad.config.oddFetch = .fault → atLoad.pc.toNat % 2 = 0) ∧
    atLoad.pc.toNat + 1 ≤ 0xFFF ∧ ∃ rest, decodeBytes [atLoad.readByte atLoad.pc.toNat, atLoad.readByte (atLoad.pc.toNat + 1)] =
      .instr (.ldByte 0xA 0x02) rest := by
  refine ⟨?_, ?_, ?_, ?_, [], ?_⟩ <;> decide

theorem witness_PlacedWordIsRunNext : decodeTableWord 16 0xF00A = some (.ldVxK 0) ∧ decodeTableWord 8 0xFFE0 = some .cls := by decide

theorem witness_ReturnPopsThePc : State.reset.sp.val = 0 ∧ ({ State.reset with sp := 16 } : State).sp.val = (15 : Fin 16).val + 1 := by
  decide

theorem witness_CallPushesTheReturnAddress : ({ State.reset with sp := 16 } : State).sp.val = 16 ∧
    ({ State.reset with sp := 15 } : State).sp = (15 : Fin 16).castSucc ∧ State.reset.sp = (0 : Fin 16).castSucc := by decide

theorem witness_ReturnUndoesCall : ∃ t : State, ({ State.reset with sp := 15 } : State).sp.val < 16 ∧
    exec (.call 0x300) { State.reset with sp := 15 } = .next t ∧ t.sp.val = 16 := ⟨_, by decide, rfl, by decide⟩

theorem witness_PcAfterACommittedCycle : ∃ t : State, exec (.jp 0x300) State.reset = .next t ∧ t.halted = false := ⟨_, rfl, rfl⟩

theorem witness_AddWritesResultThenCarry : (withV [(0, 0xFF), (1, 0x01)]).V[0].toNat = 255 ∧
    (withV [(0, 0xFF), (1, 0x01)]).V[1].toNat = 1 := by decide

theorem witness_SubtractWritesResultThenStrictFlag : (withV [(0, 7), (1, 7)]).V[0].toNat = 7 ∧ (withV [(0, 7), (1, 7)]).V[1].toNat = 7 := by
  decide

theorem witness_ShiftsWriteResultThenDroppedBit : (withV [(15, 0x81)]).V[15].toNat = 0x81 := by decide

/-- Operands at which the five flags are 1, 1, 0, 1 and 1, and with Y = F too. -/
theorem witness_FlagWinsWhenVFIsTheDestination : ((withV [(15, 0xFF), (2, 2)]).reg VF).toNat = 255 ∧
    ((withV [(15, 0xFF), (2, 2)]).reg 2).toNat = 2 ∧ ((withV [(15, 0xFF)]).reg 15).toNat = 255 := by decide

theorem witness_DrawFlipsThePixelsUnderTheSprite :
    (0 < 2 ∧ 0x1000 < (withI 0xFFF []).I.toNat + 2) ∧
    (15 ≤ 15 ∧ (withI 0xFF1 []).fb.length = 64 * (withI 0xFF1 []).fbHeight ∧ (15 = 0 ∨ (withI 0xFF1 []).I.toNat + 15 ≤ 0x1000)) ∧
    (0 ≤ 15 ∧ (withI 0xFFFF []).fb.length = 64 * (withI 0xFFFF []).fbHeight ∧ (0 = 0 ∨ (withI 0xFFFF []).I.toNat + 0 ≤ 0x1000)) := by
  decide +kernel

theorem witness_DrawTwiceRestoresTheScreen : ∃ t v : State, 1 ≤ 15 ∧ State.reset.fb.length = 64 * State.reset.fbHeight ∧
    (1 = 0 ∨ State.reset.I.toNat + 1 ≤ 0x1000) ∧ exec (.drw 0 1 1) State.reset = .next t ∧ t.I = State.reset.I ∧
    t.reg 0 = State.reset.reg 0 ∧ t.reg 1 = State.reset.reg 1 ∧ t.hiResMode = State.reset.hiResMode ∧
    (∀ k < 1, t.readByte (t.I.toNat + k) = State.reset.readByte (State.reset.I.toNat + k)) ∧ exec (.drw 0 1 1) t = .next v :=
  ⟨_, (exec_total (.drw 0 1 1) _).choose, by decide, by decide +kernel, by decide, rfl, rfl, rfl, rfl, rfl, fun _ _ => rfl,
    (exec_total _ _).choose_spec⟩

theorem witness_StoreDecimalDigits :
    FirstForbidden (withI 0xFFE []) (dataAddr (withI 0xFFE []) 0) 3 2 ∧ FirstForbidden (withI 0x04E []) (dataAddr (withI 0x04E []) 0) 3 0 ∧
    ((withI 0xFFD [(0, 255)]).V[0].toNat = 255 ∧ ∀ k < 3, WriteAllowed (withI 0xFFD [(0, 255)]) (dataAddr (withI 0xFFD [(0, 255)]) k)) := by
  unfold FirstForbidden WriteAllowed; decide

theorem witness_DumpRegisters :
    FirstForbidden (withI 0xFF1 []) (dataAddr (withI 0xFF1 []) 0) 16 15 ∧
    ∀ k ≤ (15 : Reg).val, WriteAllowed (withI 0xFF0 []) (dataAddr (withI 0xFF0 []) k) := by
  unfold FirstForbidden WriteAllowed; decide

theorem witness_LoadRegisters : 0xFFF < (withI 0xFF1 []).I.toNat + (15 : Reg).val ∧ (withI 0xFF0 []).I.toNat + (15 : Reg).val ≤ 0xFFF ∧
    (14 : Reg) < 15 := by decide

theorem witness_LoadReadsBackDump : ∃ t v : State, exec (.dump 2) (withI 0x400 [(0, 1), (1, 2)]) = .next t ∧ t.halted = false ∧
    t.I = (withI 0x400 [(0, 1), (1, 2)]).I ∧ exec (.load 2) t = .next v :=
  ⟨_, (exec_total (.load 2) _).choose, rfl, by decide, by decide, (exec_total _ _).choose_spec⟩

/-- A state whose dump of V0 and V1 stores at the address after the instruction. -/
def storesNext : State := { withI 0x302 [(0, 0x12), (1, 0x34)] with pc := 0x300 }

theorem witness_StoredWordIsFetchedNext : ∃ t : State, exec (.dump 1) storesNext = .next t ∧ t.halted = false ∧ 0 + 1 ≤ (1 : Reg).val ∧
    t.pc.toNat = dataAddr storesNext 0 ∧ t.pc.toNat % 2 = 0 := ⟨_, rfl, by decide, by decide, by decide, by decide⟩

theorem witness_CanonicalMemoriesThatReadAlikeAreEqual :
    Memory.wf (resetByte Config.default) [(0x200, 0x6A), (0x201, 0x02)] ∧ ¬ Memory.wf (resetByte Config.default) [(0x200, 0x00)] := by
  decide

theorem witness_SkipsOnAKey : 15 < ((withV [(1, 0x10)]).reg 1).toNat ∧ ((withKey 15 [(1, 15)]).reg 1).toNat = (15 : Key).val := by decide

theorem witness_WaitForAKey : (∀ k : Key, State.reset.key[k.val] = false) ∧
    (State.reset.config.keySelect = .lowest ∧ (withKey 15 []).key[(15 : Key).val] = true ∧
      ∀ j : Key, j < 15 → (withKey 15 []).key[j.val] = false) ∧
    ((withConfig (fun c => { c with keySelect := .any })).config.keySelect = .any ∧ ∃ k : Key, (withKey 0 []).key[k.val] = true) := by
  decide

/-- A core that waits in `F50A` at 0x210. -/
def waiting : State := (State.reset.setPc 0x210).writeBytes 0x210 [0xF5, 0x0A]

theorem witness_WaitingCycleRepeats : Runs waiting (.ldVxK 5) ∧ (∀ k : Key, waiting.key[k.val] = false) ∧ ∃ t, step waiting = .next t :=
  ⟨⟨0xF50A, by unfold FetchesWord; decide, by decide⟩, by decide, _, rfl⟩

theorem witness_TicksCountBothTimersDown : ({ State.reset with DT := 255, ST := 1 } : State).halted = false := rfl

/-- A cycle that faults, with its record: the unknown word of reset memory. -/
theorem witness_FaultsArePrecise : ∃ (t : State) (r : FaultRecord), State.reset.halted = false ∧ step State.reset = .next t ∧
    t.halted = true ∧ t.fault = some r := ⟨_, _, rfl, rfl, rfl, rfl⟩

/-- Every cause of `EachFaultHasItsRaiser`, from a cycle that raises it. -/
theorem witness_EachFaultHasItsRaiser :
    (runs State.reset 0x0000 (·.fault)).map (Option.map (·.cause)) = some (some .unknownOpcode) ∧
    (runs { State.reset with sp := 16 } 0x2FFF (·.fault)).map (Option.map (·.cause)) = some (some .stackOverflow) ∧
    (runs State.reset 0x00EE (·.fault)).map (Option.map (·.cause)) = some (some .stackUnderflow) ∧
    ((nextState (step (State.reset.setPc 0xFFF))).map (·.fault)).map (Option.map (·.cause)) = some (some .misalignedFetch) ∧
    ((nextState (step (State.reset.setPc 0xFFFE))).map (·.fault)).map (Option.map (·.cause)) = some (some .fetchOutOfRange) ∧
    (runs (withI 0x1000 []) 0xF065 (·.fault)).map (Option.map (·.cause)) = some (some (.memoryOutOfRange 0x1000)) ∧
    (runs (withI 0xFFF []) 0xD012 (·.fault)).map (Option.map (·.cause)) = some (some (.memoryOutOfRange (dataAddr (withI 0xFFF []) 1))) ∧
    (runs (withI 0xFFE []) 0xF033 (·.fault)).map (Option.map (·.cause)) = some (some (.memoryOutOfRange (dataAddr (withI 0xFFE []) 2))) ∧
    (runs (withI 0xFF1 []) 0xFF55 (·.fault)).map (Option.map (·.cause)) = some (some (.memoryOutOfRange (dataAddr (withI 0xFF1 []) 15))) ∧
    (runs { withConfig (fun c => { c with fontBase := .at050 }) with I := 0x04E } 0xF033 (·.fault)).map (Option.map (·.cause)) =
      some (some (.fontRegionWrite 0x050)) ∧
    (runs (withI 0x04F []) 0xF055 (·.fault)).map (Option.map (·.cause)) = some (some (.fontRegionWrite 0x04F)) ∧
    (runs (withV [(1, 0xFF)]) 0xE1A1 (·.fault)).map (Option.map (·.cause)) = some (some (.keyIndexOutOfRange 0xFF)) := by decide

theorem witness_HaltedCoreOnlyAnswersTheHost : ({ State.reset with halted := true } : State).halted = true ∧
    (List.replicate 3584 (0 : Byte)).length ≤ 3584 := ⟨rfl, by rw [List.length_replicate]⟩

theorem witness_CycleAnswersItsOutcome : State.reset.halted = false ∧ atLoad.halted = false ∧
    ({ State.reset with halted := true } : State).halted = true := by decide

theorem witness_LoadCopiesTheImage : 4096 - 512 < (List.replicate 3585 (0 : Byte)).length ∧
    (List.replicate 3584 (0 : Byte)).length ≤ 4096 - 512 := by simp only [List.length_replicate]; decide

theorem witness_BootFetchesTheFirstWord : (List.replicate 3582 (0 : Byte)).length + 2 ≤ 3584 := by rw [List.length_replicate]

theorem witness_EveryInstructionKeepsTheRest : ∃ t : State, exec (.ldB 5) (withI 0x300 [(5, 0x9C)]) = .next t := ⟨_, rfl⟩

/-- A state of the invariant that no reset gives: in the middle of a run, with a byte stored and an entry on the stack. -/
theorem witness_EveryCycleKeepsTheInvariant :
    State.Inv { atLoad with pc := 0x10FE, sp := 1, stack := State.reset.stack.set 0 0x1000 } where
  memory := by decide
  screen := by decide +kernel
  record := by decide
  pcBound := by decide
  stackBound := by decide

theorem witness_EveryRunKeepsTheInvariant : ∀ r ∈ [Request.reset true true, .load [0x6A, 0x02], .cycle, .tick, .drawFlagClear],
    r.Legit State.reset.config := by
  intro r hr
  simp only [List.mem_cons, List.not_mem_nil, or_false] at hr
  rcases hr with rfl | rfl | rfl | rfl | rfl <;> trivial

theorem witness_FontStaysAsReset : (∀ u, Request.cycle ≠ .restore u) ∧ atLoad.config.fontWrite = .fault ∧ atLoad.FontIntact ∧
    ∃ a t, serve .cycle atLoad = .next (a, t) := by
  refine ⟨fun u => Request.noConfusion, rfl, fun a ha => ?_, _, _, rfl⟩
  have h : a < 80 := by simpa [inFont, atLoad, State.reset, State.resetWith, Config.default, FontBase.addr] using ha
  simp only [atLoad, State.readByte_writeBytes]
  rw [if_neg (by omega)]
  simp only [State.writeBytes_config]; rfl

/-- The placed word's cycle changes the element `f` reads. -/
def changes {α : Type} [DecidableEq α] (s : State) (w : Nat) (f : State → α) : Bool :=
  match serve .cycle (s.withFetchWord 16 w) with
  | .next (_, t) => decide (f t ≠ f (s.withFetchWord 16 w))
  | .fault _ => false
  | .refused _ => false

/-- For each clause a request that changes its element. -/
theorem witness_OnlyTheNamedWritersWrite :
    changes (withI 0xFFD [(0, 1)]) 0xF033 (·.mem) = true ∧ changes (withI 0xFF0 [(0, 1), (15, 9)]) 0xFF55 (·.readByte 0xFFF) = true ∧
    (State.reset.load [0x6A]).2.readByte 0x200 ≠ State.reset.readByte 0x200 ∧
    changes (withI 0x000 []) 0xFF65 (·.reg 15) = true ∧ changes State.reset 0x1300 (·.pc) = true ∧ changes State.reset 0x1300 (·.opcode) = true ∧
    changes State.reset 0xA300 (·.I) = true ∧ changes (withV [(0, 1)]) 0xF01E (·.I) = true ∧ changes (withV [(0, 1)]) 0xF029 (·.I) = true ∧
    changes State.reset 0x2300 (·.stack) = true ∧ changes { State.reset with sp := 15 } 0x2300 (·.sp) = true ∧
    changes { State.reset with sp := 1 } 0x00EE (·.sp) = true ∧
    changes (withV [(0, 1)]) 0xF015 (·.DT) = true ∧ changes (withV [(0, 1)]) 0xF018 (·.ST) = true ∧
    ({ State.reset with DT := 1, ST := 1 } : State).tick.DT = 0 ∧ changes State.reset 0x0000 (·.halted) = true ∧
    changes { withKey 3 [] with config := { Config.default with keySelect := .any } } 0xF00A (·.keyDraws) = true := by decide

theorem witness_OnlyTheNamedWritersWrite_screen :
    changes { State.reset with fb := [true] } 0x00E0 (·.fb) = true ∧ changes State.reset 0xD011 (·.drawFlag) = true ∧
    changes State.reset 0xD011 (·.fb) = true ∧
    (∀ u, Request.cycle ≠ .restore u) ∧ ∀ h c, Request.cycle ≠ .reset h c :=
  ⟨by decide, by decide +kernel, by decide +kernel, fun _ => Request.noConfusion, fun _ _ => Request.noConfusion⟩

theorem witness_CyclesIgnoreWhatNoInstructionReads : ∃ t, atLoad.unread = State.unread { atLoad with ST := 9, opcode := 0x1234 } ∧
    step atLoad = .next t := ⟨_, rfl, rfl⟩

end Sys2Proof.Tests
end

section
/-! The word of a decoded instruction. -/

namespace Sys2Proof

section Encode

variable {w : Word} {i : Instr}

theorem fieldLow_eq (w : Word) : BitVec.ofNat 4 (fieldN w) = fieldLow w := by simp [fieldN]

theorem encode_of_decodeFamily0 (h : decodeFamily0 w = some i) : encode i = w := by
  unfold decodeFamily0 at h
  split_ifs at h with h1 h2 <;> cases h
  · exact h1.symm
  · exact h2.symm

theorem encode_of_decodeFamily8 (h : decodeFamily8 w = some i) :
    encode i = packXYN 8 (fieldX w) (fieldY w) (BitVec.ofNat 4 (fieldN w)) := by
  unfold decodeFamily8 at h
  split at h <;> cases h <;> rename_i hn <;> rw [hn] <;> rfl

theorem encode_of_decodeFamilyE (h : decodeFamilyE w = some i) :
    encode i = packXNN 0xE (fieldX w) (BitVec.ofNat 8 (fieldNN w).toNat) := by
  unfold decodeFamilyE at h
  split at h <;> cases h <;> rename_i hn <;> rw [hn] <;> rfl

theorem encode_of_decodeFamilyF (h : decodeFamilyF w = some i) :
    encode i = packXNN 0xF (fieldX w) (BitVec.ofNat 8 (fieldNN w).toNat) := by
  unfold decodeFamilyF at h
  split at h <;> cases h <;> rename_i hn <;> rw [hn] <;> rfl

/-- The word of the instruction the decoder reads from `w` is `w`. -/
theorem encode_of_decode (h : decode w = some i) : encode i = w := by
  have hNNN := packNNN_fields w
  have hXNN := packXNN_fields w
  have hXYN := packXYN_fields w
  have hNN : BitVec.ofNat 8 (fieldNN w).toNat = fieldNN w := by simp
  unfold decode at h
  split at h
  case h_17 => cases h
  all_goals rename_i hf; rw [hf] at hNNN hXNN hXYN
  -- the families by the format of their words (R74): F is the case's number less one
  case h_1 => exact encode_of_decodeFamily0 h
  case h_2 | h_3 | h_11 | h_12 => cases h; exact hNNN
  case h_4 | h_5 | h_7 | h_8 | h_13 => cases h; exact hXNN
  case h_6 | h_10 => cases h; exact hXYN
  case h_9 => rw [encode_of_decodeFamily8 h, fieldLow_eq]; exact hXYN
  case h_14 => cases h; rw [encode, fieldLow_eq]; exact hXYN
  case h_15 => rw [encode_of_decodeFamilyE h, hNN]; exact hXNN
  case h_16 => rw [encode_of_decodeFamilyF h, hNN]; exact hXNN

end Encode
end Sys2Proof
end

section
/-! What a cycle can do, said once for all 34 instructions: the body of each, the frame of every body, pc after it, and what
no body reads. Then the invariant, the writers of each element, and the obligations of the family 10_state. -/

namespace Sys2Proof.Machine

/-! ### The body of an instruction -/

/-- The rule of an instruction over the state the fetch left, which `exec` commits. -/
def body (i : Instr) (s : State) : Except Fault State :=
  match i with
  | .cls => .ok s.clearScreen
  | .ret =>
    match pop s with
    | .error f => .error f
    | .ok (target, t) => .ok (t.setPc target)
  | .jp nnn => .ok (s.setPc (immAddr nnn))
  | .call nnn =>
    match push s s.pc with
    | .error f => .error f
    | .ok t => .ok (t.setPc (immAddr nnn))
  | .seByte x nn => .ok (s.skipIf (decide (s.reg x = nn)))
  | .sneByte x nn => .ok (s.skipIf (decide (s.reg x ≠ nn)))
  | .seReg x y _ => .ok (s.skipIf (decide (s.reg x = s.reg y)))
  | .sneReg x y _ => .ok (s.skipIf (decide (s.reg x ≠ s.reg y)))
  | .ldByte x nn => .ok (s.setReg x nn)
  | .addByte x nn => .ok (s.setReg x (s.reg x + nn))
  | .ldReg x y => .ok (s.setReg x (s.reg y))
  | .orReg x y => .ok (s.setReg x (s.reg x ||| s.reg y))
  | .andReg x y => .ok (s.setReg x (s.reg x &&& s.reg y))
  | .xorReg x y => .ok (s.setReg x (s.reg x ^^^ s.reg y))
  | .addReg x y => .ok (s.setResultFlag x (s.reg x + s.reg y) (carryFlag (s.reg x) (s.reg y)))
  | .subReg x y => .ok (s.setResultFlag x (s.reg x - s.reg y) (minuendGreater (s.reg x) (s.reg y)))
  | .shr x _ => .ok (s.setResultFlag x (s.reg x >>> 1) (shiftedOutRight (s.reg x)))
  | .subn x y => .ok (s.setResultFlag x (s.reg y - s.reg x) (minuendGreater (s.reg y) (s.reg x)))
  | .shl x _ => .ok (s.setResultFlag x (s.reg x <<< 1) (shiftedOutLeft (s.reg x)))
  | .ldI nnn => .ok (s.setI (immAddr nnn))
  | .jpV0 nnn => .ok (s.setPc (immAddr nnn + zext16 (s.reg 0)))
  | .rnd x nn => .ok ((drawRandom s).2.setReg x ((drawRandom s).1 &&& nn))
  | .drw x y n =>
    match dataReads s (dataAddr s 0) n with
    | .error f => .error f
    | .ok rows => .ok (s.blit x y rows)
  | .skp x =>
    match keyOperand s x with
    | .error f => .error f
    | .ok k => .ok (s.skipIf (s.keyHeld k))
  | .sknp x =>
    match keyOperand s x with
    | .error f => .error f
    | .ok k => .ok (s.skipIf (!s.keyHeld k))
  | .ldVxDT x => .ok (s.setReg x s.DT)
  | .ldVxK x =>
    match s.heldKeys with
    | [] => .ok (s.setPc (s.pc - 2))
    | k :: ks => .ok ((keySelect s k ks).2.setReg x (BitVec.ofNat 8 (keySelect s k ks).1.val))
  | .ldDTVx x => .ok { s with DT := s.reg x }
  | .ldSTVx x => .ok { s with ST := s.reg x }
  | .addI x => .ok (s.setI (s.I + zext16 (s.reg x)))
  | .ldF x => .ok (s.setI (glyphAddr s x))
  | .ldB x => dataWrites s (dataAddr s 0) (bcdDigits (s.reg x))
  | .dump x => dataWrites s (dataAddr s 0) (s.regsUpTo x)
  | .load x =>
    match dataReads s (dataAddr s 0) (x.val + 1) with
    | .error f => .error f
    | .ok bytes => .ok (s.setRegs 0 bytes)

/-- `body` is the rule each meaning commits. -/
theorem exec_eq_commit_body (i : Instr) (s : State) : exec i s = commit i (body i) s := by
  cases i <;> rfl

/-- All a cycle of `i` can do: its body's state is committed, or the fault is taken. -/
theorem exec_cases {i : Instr} {s t : State} (h : exec i s = .next t) :
    body i (s.latch (encode i)) = .ok t ∨ ∃ f, t = s.raise f (some (encode i)) := by
  rw [exec_eq_commit_body] at h
  exact (commit_cases h).imp_right fun ⟨f, _, hf⟩ => ⟨f, hf⟩

/-- A cycle that ends not halted committed its body. -/
theorem body_of_exec {i : Instr} {s t : State} (h : exec i s = .next t) (ht : t.halted = false) :
    body i (s.latch (encode i)) = .ok t := by
  rcases exec_cases h with h | ⟨f, rfl⟩
  · exact h
  · cases ht

/-! ### What the bodies that can raise a fault leave when they raise none -/

section Inversion

variable {s t : State} {x y : Reg}

theorem body_ret_eq_ok (h : body .ret s = .ok t) :
    ∃ k : Fin 16, s.sp = k.succ ∧ t = ({ s with sp := k.castSucc } : State).setPc s.stack[k.val] := by
  simp only [body] at h
  split at h <;> cases h
  obtain ⟨k, hk, hr⟩ := pop_eq_ok ‹_›
  cases hr
  exact ⟨k, hk, rfl⟩

theorem body_call_eq_ok {nnn : BitVec 12} (h : body (.call nnn) s = .ok t) : ∃ k : Fin 16, s.sp = k.castSucc ∧
    t = ({ s with stack := s.stack.set k.val s.pc, sp := k.succ } : State).setPc (immAddr nnn) := by
  simp only [body] at h
  split at h <;> cases h
  obtain ⟨k, hk, rfl⟩ := push_eq_ok ‹_›
  exact ⟨k, hk, rfl⟩

theorem body_skp_eq_ok (h : body (.skp x) s = .ok t) :
    ∃ k : Key, (s.reg x).toNat = k.val ∧ t = s.skipIf (s.keyHeld k) := by
  simp only [body] at h
  split at h <;> cases h
  exact ⟨_, keyOperand_eq_ok ‹_›, rfl⟩

theorem body_sknp_eq_ok (h : body (.sknp x) s = .ok t) :
    ∃ k : Key, (s.reg x).toNat = k.val ∧ t = s.skipIf (!s.keyHeld k) := by
  simp only [body] at h
  split at h <;> cases h
  exact ⟨_, keyOperand_eq_ok ‹_›, rfl⟩

theorem body_drw_eq_ok {n : Nat} (h : body (.drw x y n) s = .ok t) : ∃ rows, t = s.blit x y rows := by
  simp only [body] at h
  split at h <;> cases h
  exact ⟨_, rfl⟩

theorem body_load_eq_ok (h : body (.load x) s = .ok t) :
    ∃ bytes : List Byte, bytes.length = x.val + 1 ∧ t = s.setRegs 0 bytes := by
  simp only [body] at h
  split at h <;> cases h
  exact ⟨_, dataReads_length ‹_›, rfl⟩

/-- `FX0A` goes back to itself with no key held, and stores a held key otherwise. -/
theorem body_ldVxK_eq_ok (h : body (.ldVxK x) s = .ok t) :
    s.heldKeys = [] ∧ t = s.setPc (s.pc - 2) ∨
      s.heldKeys ≠ [] ∧ ∃ k ks, t = (keySelect s k ks).2.setReg x (BitVec.ofNat 8 (keySelect s k ks).1.val) := by
  simp only [body] at h
  split at h <;> cases h
  · exact .inl ⟨‹_›, rfl⟩
  · exact .inr ⟨by simp [*], _, _, rfl⟩

end Inversion

/-! ### The frame of a body -/

/-- From `s` to `t` nothing but pc and what `m` lists changed, as `Kept` says, and of what `Kept` leaves open: the stored
memory is the same where `m` lists no byte and stays canonical, the screen keeps its length, `drawFlag` is not cleared and
`opcode` is kept. -/
structure Confined (m : MayChange) (s t : State) : Prop extends Kept m s t where
  memory : (∀ a, m.bytes a = false) → t.mem = s.mem
  canonical : s.mem.wf (resetByte s.config) → t.mem.wf (resetByte t.config)
  screenLength : t.fb.length = s.fb.length
  drawFlag : t.drawFlag = s.drawFlag ∨ t.drawFlag = true
  opcode : t.opcode = s.opcode

namespace Confined

variable {m : MayChange} {s t u : State}

theorem refl (m : MayChange) (s : State) : Confined m s s where
  regs _ _ := rfl
  index _ := rfl
  stack _ := rfl
  sp _ := rfl
  delay _ := rfl
  sound _ := rfl
  screen _ := ⟨rfl, rfl⟩
  generator _ := rfl
  keyDraws _ := rfl
  bytes _ _ := rfl
  key := rfl
  hiResMode := rfl
  superChipMode := rfl
  halted := rfl
  fault := rfl
  config := rfl
  memory _ := rfl
  canonical h := h
  screenLength := rfl
  drawFlag := .inl rfl
  opcode := rfl

/-- After a confined change any target may be written to pc. -/
theorem setPc (h : Confined m s t) (p : Word) : Confined m s (t.setPc p) := { h with }

theorem skipIf (h : Confined m s t) (c : Bool) : Confined m s (t.skipIf c) := by
  cases c
  · exact h
  · exact h.setPc _

theorem setReg (h : Confined m s t) {x : Reg} (v : Byte) (hx : m.regs x = true) : Confined m s (t.setReg x v) :=
  { h with
    regs := fun r hr => by
      rw [State.reg_setReg, if_neg (fun e => by simp [e, hx] at hr), h.regs r hr] }

theorem setResultFlag (h : Confined m s t) {x : Reg} (v : Byte) (c : Bool) (hx : m.regs x = true) (hf : m.regs VF = true) :
    Confined m s (t.setResultFlag x v c) := (h.setReg v hx).setReg _ hf

theorem setRegs (h : Confined m s t) (bs : List Byte) (hm : ∀ r : Reg, r.val < bs.length → m.regs r = true) :
    Confined m s (t.setRegs 0 bs) := by
  rw [State.setRegs_eq]
  exact { h with
    regs := fun r hr => by
      have hlen : ¬ r.val < bs.length := fun e => by simp [hm r e] at hr
      rw [← State.setRegs_eq, State.reg_setRegs, if_neg (by omega), h.regs r hr] }

theorem setI (h : Confined m s t) (v : Word) (hm : m.index = true) : Confined m s (t.setI v) :=
  { h with index := fun hi => by simp [hm] at hi }

theorem clearScreen (h : Confined m s t) (hm : m.screen = true) : Confined m s t.clearScreen :=
  { h with
    screen := fun hs => by simp [hm] at hs
    screenLength := by simp [h.screenLength]
    drawFlag := .inr rfl }

theorem blit (h : Confined m s t) (x y : Reg) (rows : List Byte) (hm : m.screen = true) (hf : m.regs VF = true) :
    Confined m s (t.blit x y rows) :=
  { h with
    regs := fun r hr => by rw [State.reg_blit (fun e => by simp [e, hf] at hr), h.regs r hr]
    screen := fun hs => by simp [hm] at hs
    screenLength := by rw [State.blit_eq]; simp [h.screenLength]
    drawFlag := .inr rfl }

theorem drawRandom (h : Confined m s t) (hm : m.generator = true) : Confined m s (drawRandom t).2 :=
  { h with generator := fun hg => by simp [hm] at hg }

theorem keySelect (h : Confined m s t) (k : Key) (ks : List Key) (hm : m.keyDraws = true) :
    Confined m s (keySelect t k ks).2 := by
  cases hc : t.config.keySelect with
  | lowest => rw [keySelect_lowest hc]; exact h
  | any => rw [keySelect_any hc]; exact { h with keyDraws := fun hk => by simp [hm] at hk }

theorem setSp (h : Confined m s t) (n : Fin 17) (hm : m.sp = true) : Confined m s { t with sp := n } :=
  { h with sp := fun e => by simp [hm] at e }

theorem setStack (h : Confined m s t) (v : Vector Word 16) (n : Fin 17) (hs : m.stack = true) (hn : m.sp = true) :
    Confined m s { t with stack := v, sp := n } :=
  { h with stack := fun e => by simp [hs] at e, sp := fun e => by simp [hn] at e }

theorem setDT (h : Confined m s t) (v : Byte) (hm : m.delay = true) : Confined m s { t with DT := v } :=
  { h with delay := fun e => by simp [hm] at e }

theorem setST (h : Confined m s t) (v : Byte) (hm : m.sound = true) : Confined m s { t with ST := v } :=
  { h with sound := fun e => by simp [hm] at e }

/-- Data writes that raise nothing change the bytes at their own addresses only. -/
theorem dataWrites {a : Nat} {vs : List Byte} (hw : dataWrites s a vs = .ok t)
    (hm : ∀ b, within a vs.length b = true → m.bytes b = true) : Confined m s t := by
  have hwf := fun h => wf_dataWrites h hw
  obtain ⟨-, rfl⟩ := dataWrites_eq_ok hw
  have hbytes : ∀ b, m.bytes b = false → (s.writeBytes a vs).readByte b = s.readByte b := fun b hb => by
    rw [State.readByte_writeBytes, if_neg fun e => by simp [hm b (decide_eq_true e)] at hb]
  have hmem : (∀ b, m.bytes b = false) → (s.writeBytes a vs).mem = s.mem := fun hb => by
    cases vs with
    | nil => rfl
    | cons v vs => simpa [hb] using hm a (by simp [within])
  rw [State.writeBytes_eq] at hwf hbytes hmem ⊢
  exact { refl m s with bytes := hbytes, memory := hmem, canonical := hwf }

end Confined

/-- Every body that raises nothing changes pc and what its instruction's rule names, and nothing else. -/
theorem body_confined {i : Instr} {s t : State} (h : body i s = .ok t) : Confined (mayChange i s) s t := by
  have keep := Confined.refl (mayChange i s) s
  cases i with
  | cls => cases h; exact keep.clearScreen rfl
  | ret => obtain ⟨k, -, rfl⟩ := body_ret_eq_ok h; exact (keep.setSp _ rfl).setPc _
  | call => obtain ⟨k, -, rfl⟩ := body_call_eq_ok h; exact (keep.setStack _ _ rfl rfl).setPc _
  | jp | jpV0 => cases h; exact keep.setPc _
  | seByte | sneByte | seReg | sneReg => cases h; exact keep.skipIf _
  | skp => obtain ⟨k, -, rfl⟩ := body_skp_eq_ok h; exact keep.skipIf _
  | sknp => obtain ⟨k, -, rfl⟩ := body_sknp_eq_ok h; exact keep.skipIf _
  | ldByte | addByte | ldReg | orReg | andReg | xorReg | ldVxDT => cases h; exact keep.setReg _ (decide_eq_true rfl)
  | addReg | subReg | shr | subn | shl =>
    cases h; exact keep.setResultFlag _ _ (decide_eq_true (.inl rfl)) (decide_eq_true (.inr rfl))
  | rnd => cases h; exact (keep.drawRandom rfl).setReg _ (decide_eq_true rfl)
  | drw => obtain ⟨rows, rfl⟩ := body_drw_eq_ok h; exact keep.blit _ _ _ rfl rfl
  | ldI | addI | ldF => cases h; exact keep.setI _ rfl
  | ldB | dump => exact .dataWrites h fun b hb => by simpa [mayChange, bcdDigits] using hb
  | load x =>
    obtain ⟨bytes, hlen, rfl⟩ := body_load_eq_ok h
    exact keep.setRegs _ fun r hr => decide_eq_true (Fin.le_def.2 (by omega))
  | ldVxK =>
    rcases body_ldVxK_eq_ok h with ⟨-, rfl⟩ | ⟨-, k, ks, rfl⟩
    · exact keep.setPc _
    · exact (keep.keySelect k ks rfl).setReg _ (decide_eq_true rfl)
  | ldDTVx => cases h; exact keep.setDT _ rfl
  | ldSTVx => cases h; exact keep.setST _ rfl

theorem mayChange_latch (i : Instr) (s : State) (w : Word) : mayChange i (s.latch w) = mayChange i s := by
  cases i <;> rfl

/-- The fetch itself writes only what `Kept` leaves out, pc and `opcode`. -/
theorem kept_of_confined_latch {m : MayChange} {s t : State} {w : Word} (h : Confined m (s.latch w) t) : Kept m s t :=
  { h with }

theorem exec_confined {i : Instr} {s t : State} (h : exec i s = .next t) :
    Confined (mayChange i s) (s.latch (encode i)) t ∨ ∃ f, t = s.raise f (some (encode i)) :=
  (exec_cases h).imp_left fun h => mayChange_latch i s _ ▸ body_confined h

/-! ### pc after a body -/

theorem toList_getD_key (s : State) (k : Key) : s.key.toList.getD k.val false = s.keyHeld k := by
  simp [State.keyHeld, List.getD_eq_getElem?_getD]

theorem toList_getD_stack (s : State) (k : Fin 16) : s.stack.toList.getD k.val 0 = s.stack[k.val] := by
  simp [List.getD_eq_getElem?_getD]

@[simp] theorem State.keyHeld_latch (s : State) (w : Word) (k : Key) : (s.latch w).keyHeld k = s.keyHeld k := rfl

/-- pc after a skip on `c`: two past the instruction, or four (40_control_flow R103). -/
theorem State.skipIf_latch_pc {s : State} {w : Word} (c : Prop) [Decidable c] :
    ((s.latch w).skipIf (decide c)).pc = if c then s.pc + 4 else s.pc + 2 := by
  rw [State.skipIf_latch]
  simp only [decide_eq_true_eq]

/-- The sum `BNNN` writes does not wrap (40_control_flow R107). -/
theorem immAddr_add_zext16 (nnn : BitVec 12) (v : Byte) : immAddr nnn + zext16 v = BitVec.ofNat 16 (nnn.toNat + v.toNat) :=
  BitVec.eq_of_toNat_eq (by simp [immAddr, zext16])

/-- A committed cycle leaves the pc of the table of R24. -/
theorem body_pc {i : Instr} {s t : State} {w : Word} (h : body i (s.latch w) = .ok t) : t.pc = pcAfter i s := by
  cases i with
  | ret =>
    obtain ⟨k, hk, rfl⟩ := body_ret_eq_ok h
    rw [State.latch_sp] at hk
    simp only [pcAfter, hk, Fin.val_succ, Nat.add_sub_cancel, toList_getD_stack, State.setPc_pc, State.latch_stack]
  | call => obtain ⟨k, -, rfl⟩ := body_call_eq_ok h; exact immAddr_eq _
  | jp => cases h; exact immAddr_eq _
  | jpV0 => cases h; exact immAddr_add_zext16 _ _
  | seByte | seReg => cases h; exact State.skipIf_latch_pc _
  | sneByte | sneReg => cases h; exact (State.skipIf_latch_pc _).trans (ite_not _ _ _)
  | skp =>
    obtain ⟨k, hk, rfl⟩ := body_skp_eq_ok h
    rw [State.reg_latch] at hk
    simp only [pcAfter, hk, toList_getD_key, State.skipIf_latch, State.keyHeld_latch]
  | sknp =>
    obtain ⟨k, hk, rfl⟩ := body_sknp_eq_ok h
    rw [State.reg_latch] at hk
    simp only [pcAfter, hk, toList_getD_key, State.skipIf_latch, State.keyHeld_latch]
    cases s.keyHeld k <;> rfl
  | ldVxK =>
    rcases body_ldVxK_eq_ok h with ⟨hk, rfl⟩ | ⟨hk, k, ks, rfl⟩
    · exact (BitVec.add_sub_cancel s.pc 2).trans (if_pos hk).symm
    · rw [State.setReg_pc, keySelect_pc, State.latch_pc]; exact (if_neg hk).symm
  | drw => obtain ⟨rows, rfl⟩ := body_drw_eq_ok h; rfl
  | load => obtain ⟨bytes, -, rfl⟩ := body_load_eq_ok h; exact State.setRegs_pc _ _ _
  | ldB | dump => obtain ⟨-, rfl⟩ := dataWrites_eq_ok h; exact State.writeBytes_pc _ _ _
  | cls | ldByte | addByte | ldReg | orReg | andReg | xorReg | addReg | subReg | shr | subn | shl => cases h; rfl
  | ldI | rnd | ldVxDT | ldDTVx | ldSTVx | addI | ldF => cases h; rfl

/-! ### What a step can do -/

/-- Every cycle answers a next state. -/
theorem step_total (s : State) : ∃ t, step s = .next t := by
  unfold step
  split
  · exact ⟨s, rfl⟩
  · split
    · exact ⟨_, rfl⟩
    · split
      · exact ⟨_, rfl⟩
      · exact exec_total _ _

/-- A cycle request goes on with the state of its step. -/
theorem step_of_serve_cycle {s t : State} {a : Reply} (h : serve .cycle s = .next (a, t)) : step s = .next t := by
  obtain ⟨u, hs⟩ := step_total s
  simp only [serve, hs] at h
  cases h
  exact hs

/-- All a step can do to the elements: nothing while halted, a fault taken, or the confined change of the instruction that
runs, whose word is the fetched one. -/
theorem step_confined {s t : State} (h : step s = .next t) :
    t = s ∨ (s.halted = false ∧ ∃ f w, t = s.raise f w) ∨
      ∃ i, Runs s i ∧ FetchesWord s (encode i) ∧ Confined (mayChange i s) (s.latch (encode i)) t := by
  rcases step_cases h with ⟨-, rfl⟩ | ⟨hh, f, -, rfl⟩ | ⟨hh, w, -, -, rfl⟩ | ⟨hh, w, i, hw, hd, he⟩
  · exact .inl rfl
  · exact .inr (.inl ⟨hh, _, _, rfl⟩)
  · exact .inr (.inl ⟨hh, _, _, rfl⟩)
  · rcases exec_confined he with hc | ⟨f, rfl⟩
    · exact .inr (.inr ⟨i, runs_iff.2 ⟨hh, w, hw, hd⟩, fetchesWord_iff.2 ⟨hh, (encode_of_decode hd).symm ▸ hw⟩, hc⟩)
    · exact .inr (.inl ⟨hh, _, _, rfl⟩)

/-- All a step of a running core does to `halted` and `fault`: it keeps both, or takes a fault and changes nothing else. -/
theorem step_record {s t : State} (hs : s.halted = false) (h : step s = .next t) :
    t.halted = false ∧ t.fault = s.fault ∨ ∃ f w, t = s.raise f w := by
  rcases step_confined h with rfl | ⟨-, hf⟩ | ⟨i, -, -, hc⟩
  · exact .inl ⟨hs, rfl⟩
  · exact .inr hf
  · exact .inl ⟨hc.halted.trans hs, hc.fault⟩

/-! ### Elements no body reads -/

section Unread

theorem State.pc_unread (s : State) : s.unread.pc = s.pc := rfl
theorem State.reg_unread (s : State) (r : Reg) : s.unread.reg r = s.reg r := rfl
theorem State.regsUpTo_unread (s : State) (x : Reg) : s.unread.regsUpTo x = s.regsUpTo x := rfl
theorem State.heldKeys_unread (s : State) : s.unread.heldKeys = s.heldKeys := rfl
theorem dataAddr_unread (s : State) (k : Nat) : dataAddr s.unread k = dataAddr s k := rfl
theorem keyOperand_unread (s : State) (x : Reg) : keyOperand s.unread x = keyOperand s x := rfl
theorem fetchWord_unread (s : State) : fetchWord s.unread = fetchWord s := rfl

theorem State.skipIf_unread (s : State) (c : Bool) : s.unread.skipIf c = (s.skipIf c).unread := by cases c <;> rfl

theorem dataReads_unread (s : State) (a n : Nat) : dataReads s.unread a n = dataReads s a n := by
  induction n generalizing a with
  | zero => rfl
  | succ n ih => simp only [dataReads, ih]; rfl

/-- Data writes read and write none of the unread elements. -/
theorem dataWrites_unread (s : State) (a : Nat) (vs : List Byte) :
    dataWrites s.unread a vs = (dataWrites s a vs).map State.unread := by
  induction vs generalizing s a with
  | nil => rfl
  | cons v vs ih =>
    have hw : dataWrite s.unread a v = (dataWrite s a v).map State.unread := by
      unfold dataWrite
      rw [show s.unread.config = s.config from rfl]
      split_ifs <;> rfl
    simp only [dataWrites, hw]
    cases dataWrite s a v with
    | error f => rfl
    | ok t => exact ih t (a + 1)

theorem pop_unread (s : State) : pop s.unread = (pop s).map fun r => (r.1, r.2.unread) := by
  unfold pop
  by_cases h : 0 < s.sp.val
  · rw [dif_pos h, dif_pos (show 0 < s.unread.sp.val from h)]; rfl
  · rw [dif_neg h, dif_neg (show ¬ 0 < s.unread.sp.val from h)]; rfl

theorem push_unread (s : State) (v : Word) : push s.unread v = (push s v).map State.unread := by
  unfold push
  by_cases h : s.sp.val < 16
  · rw [dif_pos h, dif_pos (show s.unread.sp.val < 16 from h)]; rfl
  · rw [dif_neg h, dif_neg (show ¬ s.unread.sp.val < 16 from h)]; rfl

theorem setRegs_unread (s : State) (k : Nat) (bs : List Byte) : s.unread.setRegs k bs = (s.setRegs k bs).unread := by
  induction bs generalizing s k with
  | nil => rfl
  | cons b bs ih => exact ih { s with V := s.V.setIfInBounds k b } (k + 1)

theorem keySelect_unread (s : State) (k : Key) (ks : List Key) :
    keySelect s.unread k ks = ((keySelect s k ks).1, (keySelect s k ks).2.unread) := by
  unfold keySelect
  simp only [State.unread]
  split <;> rfl

/-- A body gives the same next state up to the unread elements, and the same fault, whatever these hold. -/
theorem body_unread (i : Instr) (s : State) : (body i s.unread).map State.unread = (body i s).map State.unread := by
  cases i with
  | ret => simp only [body, pop_unread]; cases pop s <;> rfl
  | call => simp only [body, State.pc_unread, push_unread]; cases push s s.pc <;> rfl
  | skp x | sknp x =>
    simp only [body, keyOperand_unread]
    cases keyOperand s x with
    | error f => rfl
    | ok k => exact congrArg (fun t => Except.ok t.unread) (s.skipIf_unread _)
  | drw x y n =>
    simp only [body, dataAddr_unread, dataReads_unread]
    cases dataReads s (dataAddr s 0) n <;> rfl
  | load x =>
    simp only [body, dataAddr_unread, dataReads_unread, setRegs_unread]
    cases dataReads s (dataAddr s 0) (x.val + 1) <;> rfl
  | ldB x =>
    simp only [body, dataAddr_unread, State.reg_unread, dataWrites_unread]
    cases dataWrites s (dataAddr s 0) (bcdDigits (s.reg x)) <;> rfl
  | dump x =>
    simp only [body, dataAddr_unread, State.regsUpTo_unread, dataWrites_unread]
    cases dataWrites s (dataAddr s 0) (s.regsUpTo x) <;> rfl
  | ldVxK x =>
    simp only [body, State.heldKeys_unread, keySelect_unread]
    cases s.heldKeys <;> rfl
  | seByte | sneByte | seReg | sneReg => exact congrArg (fun t => Except.ok t.unread) (s.skipIf_unread _)
  | _ => rfl

/-- What a commit leaves up to the unread elements is what its body leaves up to them, or the fault taken. -/
theorem nextState_commit_unread {i : Instr} {s : State} {b b' : State → Except Fault State}
    (h : (b' (s.unread.latch (encode i))).map State.unread = (b (s.latch (encode i))).map State.unread) :
    (nextState (commit i b' s.unread)).map State.unread = (nextState (commit i b s)).map State.unread := by
  unfold commit
  cases hb : b (s.latch (encode i)) with
  | ok t =>
    cases hb' : b' (s.unread.latch (encode i)) with
    | ok t' => rw [hb, hb'] at h; exact congrArg some (Except.ok.inj h)
    | error f' => rw [hb, hb'] at h; cases h
  | error f =>
    cases hb' : b' (s.unread.latch (encode i)) with
    | ok t' => rw [hb, hb'] at h; cases h
    | error f' => rw [hb, hb'] at h; cases h; rfl

theorem exec_unread (i : Instr) (s : State) :
    (nextState (exec i s.unread)).map State.unread = (nextState (exec i s)).map State.unread := by
  rw [exec_eq_commit_body, exec_eq_commit_body]
  exact nextState_commit_unread ((body_unread i (s.unread.latch _)).symm.trans (body_unread i (s.latch _)))

/-- A cycle gives the same next state up to the unread elements, whatever these hold. -/
theorem step_unread (s : State) : (nextState (step s.unread)).map State.unread = (nextState (step s)).map State.unread := by
  unfold step
  rw [fetchWord_unread, show s.unread.halted = s.halted from rfl]
  split
  · rfl
  · split
    · rfl
    · split
      · rfl
      · exact exec_unread _ s

end Unread

/-! ### The invariant -/

theorem State.Inv.resetWith (c : Config) (hiRes superChip : Bool) : (State.resetWith c hiRes superChip).Inv where
  memory := Memory.wf_nil
  screen := List.length_replicate
  record := rfl
  pcBound := by simp [State.resetWith]
  stackBound k := by simp [State.resetWith]

/-- Taking a fault writes `halted` and its record together. -/
theorem State.Inv.raise {s : State} (h : s.Inv) (f : Fault) (w : Option Word) : (s.raise f w).Inv :=
  { h with record := rfl }

/-- Every entry of the table of R24 is within R25's bound, after a fetch that passed its range check. -/
theorem pcAfter_le {s : State} (h : s.Inv) (hpc : s.pc.toNat + 1 ≤ 0xFFF) (i : Instr) : (pcAfter i s).toNat ≤ 0x10FE := by
  have h2 : (s.pc + 2).toNat ≤ 0x10FE := by bv_omega
  have h4 : (s.pc + 4).toNat ≤ 0x10FE := by bv_omega
  cases i with
  | ret =>
    have hk : s.sp.val - 1 < 16 := by have := s.sp.isLt; omega
    have := h.stackBound ⟨s.sp.val - 1, hk⟩
    rw [pcAfter, toList_getD_stack s ⟨_, hk⟩]
    omega
  | jp nnn | call nnn => have := nnn.isLt; simp only [pcAfter, BitVec.toNat_ofNat]; omega
  | jpV0 nnn => have := nnn.isLt; have := (s.reg 0).isLt; simp only [pcAfter, BitVec.toNat_ofNat]; omega
  | seByte | sneByte | seReg | sneReg | skp | sknp => simp only [pcAfter]; split <;> assumption
  | ldVxK => simp only [pcAfter]; split <;> omega
  | _ => exact h2

/-- The stack after a committed body: a call writes one entry, pc, and nothing else writes any. -/
theorem body_stack {i : Instr} {s t : State} (h : body i s = .ok t) (k : Fin 16) :
    t.stack[k.val] = s.stack[k.val] ∨ t.stack[k.val] = s.pc := by
  by_cases hm : (mayChange i s).stack = false
  · rw [(body_confined h).stack hm]; exact .inl rfl
  · cases i with
    | call nnn =>
      obtain ⟨j, -, rfl⟩ := body_call_eq_ok h
      simp only [State.setPc_stack, Vector.getElem_set]
      split
      · exact .inr rfl
      · exact .inl rfl
    | _ => exact absurd rfl hm

/-- A cycle keeps the invariant and the parameters. -/
theorem State.Inv.step {s t : State} (h : s.Inv) (hs : step s = .next t) : t.Inv ∧ t.config = s.config := by
  rcases step_cases hs with ⟨-, rfl⟩ | ⟨-, f, -, rfl⟩ | ⟨-, w, -, -, rfl⟩ | ⟨-, w, i, hw, -, he⟩
  · exact ⟨h, rfl⟩
  · exact ⟨h.raise f none, rfl⟩
  · exact ⟨h.raise _ (some w), rfl⟩
  · obtain ⟨-, hpc, -⟩ := fetchWord_eq_ok.1 hw
    rcases exec_cases he with hb | ⟨f, rfl⟩
    · have hc := body_confined hb
      refine ⟨⟨hc.canonical h.memory, ?_, ?_, ?_, fun k => ?_⟩, hc.config⟩
      · rw [hc.screenLength, State.fbHeight, hc.hiResMode]; exact h.screen
      · rw [hc.halted, hc.fault]; exact h.record
      · rw [body_pc hb]; exact pcAfter_le h hpc i
      · rcases body_stack hb k with e | e
        · rw [e]; exact h.stackBound k
        · rw [e, State.latch_pc]; bv_omega
    · exact ⟨h.raise f _, rfl⟩

/-- The state a load leaves: an image too large writes nothing (70_reset R243, R244). -/
theorem State.load_snd (s : State) (image : List Byte) :
    (s.load image).2 = if image.length > Config.programMax then s else s.writeBytes Config.programBase image := by
  unfold State.load; split <;> rfl

/-- Every legitimate request is served and keeps the invariant and the parameters. -/
theorem State.Inv.serve {s : State} (h : s.Inv) {r : Request} (hr : r.Legit s.config) :
    ∃ a t, serve r s = .next (a, t) ∧ t.Inv ∧ t.config = s.config := by
  cases r with
  | reset hiRes superChip => exact ⟨_, _, rfl, { State.Inv.resetWith s.config hiRes superChip with }, rfl⟩
  | load image =>
    refine ⟨_, (s.load image).2, rfl, ?_⟩
    rw [State.load_snd]
    split_ifs with hlen
    · exact ⟨h, rfl⟩
    · have hfit : Config.programBase + image.length ≤ Config.memSize := by
        simp only [Config.programMax, Config.programBase, Config.memSize] at hlen ⊢; omega
      rw [State.writeBytes_eq]
      exact ⟨{ h with memory := State.wf_writeBytes h.memory hfit }, rfl⟩
  | cycle =>
    obtain ⟨t, ht⟩ := step_total s
    exact ⟨.cycle (cycleAnswer s t), t, by simp only [Machine.serve, ht], h.step ht⟩
  | tick =>
    refine ⟨_, s.tick, rfl, ?_⟩
    unfold State.tick
    split
    · exact ⟨h, rfl⟩
    · exact ⟨{ h with }, rfl⟩
  | keypad keys => exact ⟨_, _, rfl, { h with }, rfl⟩
  | drawFlagClear => exact ⟨_, _, rfl, { h with }, rfl⟩
  | restore snapshot => exact ⟨_, _, rfl, hr⟩

/-! ### Writers -/

/-- What is kept unless `m` lists it, and changed, `m` lists. -/
theorem listed_of_changed {m : Bool} {kept : Prop} (h : m = false → kept) (hne : ¬ kept) : m = true :=
  eq_true_of_ne_false (mt h hne)

section Writers

variable {i : Instr} {s t : State}

/-- The registers the frame lists are those the claims call written. -/
theorem mayChange_regs {v : Reg} : (mayChange i s).regs v = true ↔ WritesReg i v := by
  cases i <;> simp [mayChange, WritesReg]

theorem index_writer (hr : Runs s i) (h : (mayChange i s).index = true) :
    (∃ nnn, Runs s (.ldI nnn)) ∨ ∃ x, Runs s (.addI x) ∨ Runs s (.ldF x) := by
  cases i with
  | ldI => exact .inl ⟨_, hr⟩
  | addI => exact .inr ⟨_, .inl hr⟩
  | ldF => exact .inr ⟨_, .inr hr⟩
  | _ => cases h

theorem stack_writer (hr : Runs s i) (h : (mayChange i s).stack = true) : ∃ nnn, Runs s (.call nnn) := by
  cases i with
  | call => exact ⟨_, hr⟩
  | _ => cases h

theorem sp_writer (hr : Runs s i) (h : (mayChange i s).sp = true) : Runs s .ret ∨ ∃ nnn, Runs s (.call nnn) := by
  cases i with
  | ret => exact .inl hr
  | call => exact .inr ⟨_, hr⟩
  | _ => cases h

theorem delay_writer (hr : Runs s i) (h : (mayChange i s).delay = true) : ∃ x, Runs s (.ldDTVx x) := by
  cases i with
  | ldDTVx => exact ⟨_, hr⟩
  | _ => cases h

theorem sound_writer (hr : Runs s i) (h : (mayChange i s).sound = true) : ∃ x, Runs s (.ldSTVx x) := by
  cases i with
  | ldSTVx => exact ⟨_, hr⟩
  | _ => cases h

theorem screen_writer (hr : Runs s i) (h : (mayChange i s).screen = true) : Runs s .cls ∨ ∃ x y n, Runs s (.drw x y n) := by
  cases i with
  | cls => exact .inl hr
  | drw => exact .inr ⟨_, _, _, hr⟩
  | _ => cases h

theorem generator_writer (hr : Runs s i) (h : (mayChange i s).generator = true) : ∃ x nn, Runs s (.rnd x nn) := by
  cases i with
  | rnd => exact ⟨_, _, hr⟩
  | _ => cases h

theorem keyDraws_writer (hr : Runs s i) (h : (mayChange i s).keyDraws = true) : ∃ x, Runs s (.ldVxK x) := by
  cases i with
  | ldVxK => exact ⟨_, hr⟩
  | _ => cases h

theorem exists_offset_of_within {n b : Nat} (h : within (dataAddr s 0) n b = true) : ∃ k < n, b = dataAddr s k := by
  obtain ⟨h1, h2⟩ := of_decide_eq_true h
  simp only [dataAddr] at h1 h2 ⊢
  exact ⟨b - s.I.toNat, by omega, by omega⟩

theorem bytes_writer (hr : Runs s i) {b : Nat} (h : (mayChange i s).bytes b = true) :
    ∃ x : Reg, Runs s (.ldB x) ∧ (∃ k < 3, b = dataAddr s k) ∨ Runs s (.dump x) ∧ ∃ k ≤ x.val, b = dataAddr s k := by
  cases i with
  | ldB x => exact ⟨x, .inl ⟨hr, exists_offset_of_within h⟩⟩
  | dump x =>
    obtain ⟨k, hk, hb⟩ := exists_offset_of_within h
    exact ⟨x, .inr ⟨hr, k, by omega, hb⟩⟩
  | _ => cases h

end Writers

/-! ### The obligations -/

/-- Settles O54, by the cases of a step: what a commit may change, or a fault taken. -/
theorem everyCycleKeepsTheInvariant : Obligations.EveryCycleKeepsTheInvariant :=
  fun _ _ h hs => h.step hs

/-- Settles O55, by induction on the requests. -/
theorem everyRunKeepsTheInvariant : Obligations.EveryRunKeepsTheInvariant := by
  intro rs
  induction rs with
  | nil => exact fun s h _ => ⟨s, rfl, h, rfl⟩
  | cons r rs ih =>
    intro s h hl
    obtain ⟨a, t, hs, ht, hc⟩ := h.serve (hl r List.mem_cons_self)
    obtain ⟨u, hu, hi, hcu⟩ := ih t ht fun q hq => hc ▸ hl q (List.mem_cons_of_mem _ hq)
    exact ⟨u, by simp only [serveAll, hs, hu], hi, hcu.trans hc⟩

/-- Settles O58: a cycle from either state is, up to the unread elements, the cycle from the state that both are without
them. -/
theorem cyclesIgnoreWhatNoInstructionReads : Obligations.CyclesIgnoreWhatNoInstructionReads := by
  intro s s' t hu hs
  obtain ⟨t', hs'⟩ := step_total s'
  have h : (nextState (step s')).map State.unread = (nextState (step s)).map State.unread := by
    rw [← step_unread s', ← hu, step_unread s]
  rw [hs, hs'] at h
  exact ⟨t', hs', Option.some.inj h⟩

/-- Settles O16: a cycle that ends not halted committed its body, and each body leaves the pc of R24's table. -/
theorem pcAfterACommittedCycle : Obligations.PcAfterACommittedCycle := by
  intro i s t h ht
  exact body_pc (body_of_exec h ht)

/-- Settles O48, by the two things a step of a running core does to `halted` and `fault`. -/
theorem cycleAnswersItsOutcome : Obligations.CycleAnswersItsOutcome := by
  intro s
  refine ⟨fun hs => by simp [serve, step, cycleAnswer, hs], fun hs => ?_⟩
  obtain ⟨t, ht⟩ := step_total s
  refine ⟨t, ht, ?_⟩
  rcases step_record hs ht with ⟨hh, hf⟩ | ⟨f, w, rfl⟩
  · exact .inl ⟨hh, hf, by simp [serve, ht, cycleAnswer, hs, hh]⟩
  · exact .inr ⟨_, rfl, by simp [serve, ht, cycleAnswer, hs]⟩

/-- Settles O52: a committed cycle is its body's change, and every other cycle is the fault taken. -/
theorem everyInstructionKeepsTheRest : Obligations.EveryInstructionKeepsTheRest := by
  intro i s t h
  exact (exec_confined h).imp_left kept_of_confined_latch

/-- Settles O57: for a cycle, an element changed is one `mayChange` lists, and each such has its writers; any other request
writes its own elements only. -/
theorem onlyTheNamedWritersWrite : Obligations.OnlyTheNamedWritersWrite := by
  intro r s t a h hrestore hreset
  cases r with
  | reset hiRes superChip => exact absurd rfl (hreset hiRes superChip)
  | restore snapshot => exact absurd rfl (hrestore snapshot)
  | keypad | drawFlagClear => cases h; simp [State.reg, State.readByte]
  | tick =>
    cases h
    unfold State.tick
    split <;> simp [State.reg, State.readByte]
  | load image =>
    obtain rfl : (s.load image).2 = t := congrArg Prod.snd (Host.Outcome.next.inj h)
    rw [State.load_snd]
    split
    · simp
    · simp +contextual [State.readByte_writeBytes, Config.programBase]
  | cycle =>
    rcases step_confined (step_of_serve_cycle h) with rfl | ⟨hh, f, w, rfl⟩ | ⟨i, hr, hw, hc⟩
    · simp
    · simp [State.reg, hh]
    · refine ⟨fun hne => ?_, fun b hne => ?_, fun v hne => ?_, fun _ => rfl, fun _ => ?_, fun hne => ?_, fun hne => ?_,
        fun hne => ?_, fun hne => ?_, fun hne => ?_, fun hne => ?_, fun hne => ?_, fun hne => ?_, fun hne => ?_, fun hne => ?_,
        fun hne => ?_, hc.hiResMode, hc.superChipMode, hc.config⟩
      · obtain ⟨b, hb⟩ : ∃ b, (mayChange i s).bytes b = true := by
          by_contra hn
          exact hne (hc.memory fun b => Bool.eq_false_iff.2 fun e => hn ⟨b, e⟩)
        obtain ⟨x, hx⟩ := bytes_writer hr hb
        exact .inr ⟨rfl, x, hx.imp And.left And.left⟩
      · exact .inr ⟨rfl, bytes_writer hr (listed_of_changed (hc.bytes b) hne)⟩
      · exact ⟨rfl, i, hr, mayChange_regs.1 (listed_of_changed (hc.regs v) hne)⟩
      · exact ⟨rfl, by rw [hc.opcode]; exact hw⟩
      · exact ⟨rfl, index_writer hr (listed_of_changed hc.index hne)⟩
      · exact ⟨rfl, stack_writer hr (listed_of_changed hc.stack hne)⟩
      · exact ⟨rfl, sp_writer hr (listed_of_changed hc.sp hne)⟩
      · exact .inr ⟨rfl, delay_writer hr (listed_of_changed hc.delay hne)⟩
      · exact .inr ⟨rfl, sound_writer hr (listed_of_changed hc.sound hne)⟩
      · exact absurd hc.key hne
      · exact ⟨rfl, generator_writer hr (listed_of_changed hc.generator hne)⟩
      · exact ⟨rfl, screen_writer hr (listed_of_changed (fun e => (hc.screen e).1) hne)⟩
      · exact .inr ⟨rfl, hc.drawFlag.resolve_left hne, screen_writer hr (listed_of_changed (fun e => (hc.screen e).2) hne)⟩
      · exact absurd hne (by simp [hc.halted, hc.fault])
      · exact ⟨rfl, keyDraws_writer hr (listed_of_changed hc.keyDraws hne)⟩

/-- Settles O49: memory lists no byte after a reset, so each reads as its reset contents. -/
theorem resetWritesEveryElement : Obligations.ResetWritesEveryElement := by
  intro s hiRes superChip
  refine ⟨s.resetRequest hiRes superChip, rfl, fun a _ => rfl, fun k => ?_, rfl, rfl, ?_, fun p hp => ?_, ?_⟩
  · simp [State.resetRequest, State.resetWith]
  · exact List.length_replicate
  · exact List.getElem?_replicate_of_lt (by simpa [State.resetRequest, State.resetWith] using hp)
  · exact ⟨rfl, rfl, rfl, rfl, rfl, rfl, rfl, rfl, rfl, rfl⟩

/-- Settles O53. -/
theorem resetMeetsTheInvariant : Obligations.ResetMeetsTheInvariant :=
  ⟨State.Inv.resetWith _ _ _, State.Inv.resetWith⟩

end Sys2Proof.Machine
end

section
/-! Memory: what stored bytes read as, the font under FONT_WRITE = fault, canonical memories as data. The obligations of the
family 20_memory. -/

namespace Sys2Proof.Machine

/-! ### The font region under FONT_WRITE = fault -/

section Font

variable {s t : State} {a b : Nat} {vs : List Byte}

/-- The font region ends below PROGRAM_BASE, wherever FONT_BASE puts it (20_memory R56). -/
theorem lt_programBase_of_inFont {c : Config} (h : inFont c a = true) : a < Config.programBase := by
  have hb : c.fontBase.addr ≤ 0x050 := by cases c.fontBase <;> decide
  obtain ⟨-, ha⟩ := of_decide_eq_true h
  simp only [Config.fontSize] at ha
  simp only [Config.programBase]
  omega

/-- Data writes that raise nothing leave every protected byte. -/
theorem readByte_dataWrites_of_fontStops (h : dataWrites s a vs = .ok t) (hb : fontStops s b) :
    t.readByte b = s.readByte b := by
  obtain ⟨hw, rfl⟩ := dataWrites_eq_ok h
  have hout : ¬ (a ≤ b ∧ b < a + vs.length) := fun ⟨hab, hlt⟩ => by
    have hfree := (hw (b - a) (by omega)).2
    rw [Nat.add_sub_cancel' hab] at hfree
    exact hfree hb
  rw [State.readByte_writeBytes, if_neg hout]

/-- Only `FX33` and `FX55` store, and both do so through the checked data writes. -/
theorem readByte_body_of_fontStops {i : Instr} (h : body i s = .ok t) (hb : fontStops s b) :
    t.readByte b = s.readByte b := by
  cases i with
  | ldB | dump => exact readByte_dataWrites_of_fontStops h hb
  | _ => exact (body_confined h).bytes b rfl

theorem readByte_step_of_fontStops (h : step s = .next t) (hb : fontStops s b) : t.readByte b = s.readByte b := by
  rcases step_cases h with ⟨-, rfl⟩ | ⟨-, f, -, rfl⟩ | ⟨-, w, -, -, rfl⟩ | ⟨-, w, i, -, -, he⟩
  · rfl
  · rfl
  · rfl
  · rcases exec_cases he with hc | ⟨f, rfl⟩
    · exact (readByte_body_of_fontStops hc hb).trans (State.readByte_latch s b _)
    · rfl

theorem step_config (h : step s = .next t) : t.config = s.config := by
  rcases step_confined h with rfl | ⟨-, f, w, rfl⟩ | ⟨i, -, -, hc⟩
  · rfl
  · rfl
  · exact hc.config

/-- The font stays intact where the parameters and the bytes of its region stay. -/
theorem State.FontIntact.of_readByte_eq (h : s.FontIntact) (hc : t.config = s.config)
    (hb : ∀ a, inFont s.config a = true → t.readByte a = s.readByte a) : t.FontIntact := by
  intro a ha
  rw [hc] at ha ⊢
  exact (hb a ha).trans (h a ha)

theorem State.FontIntact.step (h : s.FontIntact) (hf : s.config.fontWrite = .fault) (hs : step s = .next t) :
    t.FontIntact :=
  h.of_readByte_eq (step_config hs) fun _ ha => readByte_step_of_fontStops hs ⟨hf, ha⟩

/-- A load copies to PROGRAM_BASE and up, so it never meets the font. -/
theorem State.FontIntact.load (h : s.FontIntact) (image : List Byte) : (s.load image).2.FontIntact := by
  rw [State.load_snd]
  split_ifs
  · exact h
  · refine h.of_readByte_eq (State.writeBytes_config ..) fun a ha => ?_
    have := lt_programBase_of_inFont ha
    rw [State.readByte_writeBytes, if_neg (by omega)]

theorem State.FontIntact.tick (h : s.FontIntact) : s.tick.FontIntact := by
  unfold State.tick
  split_ifs <;> exact h

end Font

/-! ### What a committed dump stores -/

theorem State.getD_regsUpTo_eq_getD_V {s : State} {x : Reg} {k : Nat} (hk : k ≤ x.val) :
    (s.regsUpTo x).getD k 0 = s.V.toList.getD k 0 :=
  (State.getD_regsUpTo (r := ⟨k, by omega⟩) (Fin.le_def.2 hk)).trans State.getD_toList_V.symm

/-- A committed `FX55` stored V[0] to V[X], each at its own address, all in range (43_index_memory R164). -/
theorem readByte_of_exec_dump {x : Reg} {s t : State} {k : Nat} (h : exec (.dump x) s = .next t) (ht : t.halted = false)
    (hk : k ≤ x.val) : dataAddr s k ≤ 0xFFF ∧ t.readByte (dataAddr s k) = s.V.toList.getD k 0 := by
  obtain ⟨hw, rfl⟩ := dataWrites_eq_ok (body_of_exec h ht)
  have haddr : dataAddr s k = dataAddr (s.latch (encode (.dump x))) 0 + k := rfl
  have hrange := (hw k (by rw [State.length_regsUpTo]; omega)).1
  refine ⟨haddr ▸ hrange, ?_⟩
  rw [haddr, State.readByte_writeBytes, State.length_regsUpTo, if_pos (by omega), Nat.add_sub_cancel_left,
    State.getD_regsUpTo_eq_getD_V hk, State.latch_V]

/-! ### Canonical memories as data -/

section Canonical

variable {bg : Nat → Byte} {m n : Memory} {k j : Nat} {b c : Byte}

theorem Memory.wf_cons : Memory.wf bg ((k, b) :: m) ↔
    b ≠ bg k ∧ k < Config.memSize ∧ (∀ e ∈ m, k < e.1) ∧ m.wf bg := by
  simp only [Memory.wf, List.pairwise_cons, List.forall_mem_cons]
  tauto

/-- What lies below the first listed address of a canonical memory lies below all of them. -/
theorem Memory.forall_lt_of_lt_head (h : Memory.wf bg ((j, c) :: n)) (hk : k < j) : ∀ e ∈ (j, c) :: n, k < e.1 := by
  obtain ⟨-, -, hn, -⟩ := Memory.wf_cons.1 h
  exact List.forall_mem_cons.2 ⟨hk, fun e he => hk.trans (hn e he)⟩

/-- The first listed byte of a canonical memory tells it from every memory that lists only addresses above. -/
theorem Memory.read_head_ne (h : Memory.wf bg ((k, b) :: m)) (hn : ∀ e ∈ n, k < e.1) :
    Memory.read bg ((k, b) :: m) k ≠ n.read bg k := by
  rw [Memory.read, if_pos rfl, Memory.read_of_lt hn]
  exact (Memory.wf_cons.1 h).1

/-- Canonical memories that list the same first address and read alike list the same byte there, and their rests read
alike. -/
theorem Memory.head_eq_and_read_tail_eq (hm : ∀ e ∈ m, k < e.1) (hn : ∀ e ∈ n, k < e.1)
    (h : ∀ a, Memory.read bg ((k, b) :: m) a = Memory.read bg ((k, c) :: n) a) :
    b = c ∧ ∀ a, m.read bg a = n.read bg a := by
  simp only [Memory.read] at h
  refine ⟨by simpa using h k, fun a => ?_⟩
  by_cases ha : a = k
  · rw [ha, Memory.read_of_lt hm, Memory.read_of_lt hn]
  · simpa [ha] using h a

end Canonical

/-! ### The obligations -/

/-- Settles O56: no checked write and no load reaches the font region, and a reset unlists it. -/
theorem fontStaysAsReset : Obligations.FontStaysAsReset := by
  intro r s t a hrestore hf hi h
  cases r with
  | reset hiRes superChip => cases h; exact fun _ _ => rfl
  | load image =>
    obtain rfl : (s.load image).2 = t := congrArg Prod.snd (Host.Outcome.next.inj h)
    exact hi.load image
  | cycle => exact hi.step hf (step_of_serve_cycle h)
  | tick => cases h; exact hi.tick
  | keypad keys | drawFlagClear => cases h; exact hi
  | restore snapshot => exact absurd rfl (hrestore snapshot)

/-- Settles O35: the two bytes at pc are the ones the dump stored there. -/
theorem storedWordIsFetchedNext : Obligations.StoredWordIsFetchedNext := by
  intro x s t k h ht hk hpc heven
  obtain ⟨-, hhi⟩ := readByte_of_exec_dump h ht (Nat.le_of_succ_le hk)
  obtain ⟨hrange, hlo⟩ := readByte_of_exec_dump h ht hk
  have hnext : t.pc.toNat + 1 = dataAddr s (k + 1) := congrArg (· + 1) hpc
  rw [← hpc] at hhi
  rw [← hnext] at hrange hlo
  have hw := toNat_bigEndian (t.readByte t.pc.toNat) (t.readByte (t.pc.toNat + 1))
  exact ⟨_, ⟨ht, fun _ => heven, hrange, hw⟩, by rw [hw, hhi, hlo]⟩

/-- Settles O36, by induction on the first list: two first addresses that differ are told apart at the lower one. -/
theorem canonicalMemoriesThatReadAlikeAreEqual : Obligations.CanonicalMemoriesThatReadAlikeAreEqual := by
  intro bg m
  induction m with
  | nil =>
    intro n _ hn h
    cases n with
    | nil => rfl
    | cons e n => exact absurd (h e.1).symm (Memory.read_head_ne hn (List.forall_mem_nil _))
  | cons e m ih =>
    obtain ⟨k, b⟩ := e
    intro n hm hn h
    cases n with
    | nil => exact absurd (h k) (Memory.read_head_ne hm (List.forall_mem_nil _))
    | cons e n =>
      obtain ⟨j, c⟩ := e
      rcases Nat.lt_trichotomy k j with hlt | rfl | hlt
      · exact absurd (h k) (Memory.read_head_ne hm (Memory.forall_lt_of_lt_head hn hlt))
      · obtain ⟨-, -, hkm, hm'⟩ := Memory.wf_cons.1 hm
        obtain ⟨-, -, hkn, hn'⟩ := Memory.wf_cons.1 hn
        obtain ⟨rfl, htail⟩ := Memory.head_eq_and_read_tail_eq hkm hkn h
        rw [ih n hm' hn' htail]
      · exact absurd (h j).symm (Memory.read_head_ne hn (Memory.forall_lt_of_lt_head hm hlt))

end Sys2Proof.Machine
end

section
/-! The encoding: decode after encode and encode after decode, the unknown words, the opcode table's rows, and the cycle of a
fetched word. The obligations of the family 30_encoding. -/

namespace Sys2Proof

section Encoding

variable {w v m : Word} {i : Instr}

/-! ### The round trip (30_encoding R72, R75) -/

/-- The encoder keeps the count of sprite rows mod 16. -/
theorem decode_encode_drw (x y : Reg) (n : Nat) : decode (encode (.drw x y n)) = some (.drw x y (n % 16)) := by
  simp [encode, decode]

theorem decode_encode (hi : i.wellFormed = true) : decode (encode i) = some i := by
  cases i with
  | cls | ret => rfl
  | jp | call | ldI | jpV0 => simp [encode, decode]
  | seByte | sneByte | ldByte | addByte | rnd => simp [encode, decode]
  | seReg | sneReg => simp [encode, decode]
  | ldReg | orReg | andReg | xorReg | addReg | subReg | shr | subn | shl => simp [encode, decode, decodeFamily8]
  | skp | sknp => simp [encode, decode, decodeFamilyE]
  | ldVxDT | ldVxK | ldDTVx | ldSTVx | addI | ldF | ldB | dump | load =>
    simp [encode, decode, decodeFamilyF]
  | drw x y n =>
    have hn : n ≤ 15 := of_decide_eq_true hi
    rw [decode_encode_drw, Nat.mod_eq_of_lt (by omega)]

/-- Only a count of sprite rows could be too large, and the decoder reads one back from the instruction's own word. -/
theorem wellFormed_of_decode (h : decode w = some i) : i.wellFormed = true := by
  cases i with
  | drw x y n =>
    rw [← encode_of_decode h, decode_encode_drw] at h
    obtain ⟨-, -, hn⟩ := Instr.drw.inj (Option.some.inj h)
    exact decide_eq_true (by omega)
  | _ => rfl

/-! ### The unknown words (30_encoding R82) -/

theorem decodeFamily0_eq_none : decodeFamily0 w = none ↔ w ≠ 0x00E0#16 ∧ w ≠ 0x00EE#16 := by
  unfold decodeFamily0
  split_ifs with h1 h2 <;> simp [*]

theorem decodeFamily8_eq_none : decodeFamily8 w = none ↔ fieldN w ∈ [0x8, 0x9, 0xA, 0xB, 0xC, 0xD, 0xF] := by
  have hlt : fieldN w < 16 := (fieldLow w).isLt
  interval_cases hn : fieldN w <;> simp [decodeFamily8, hn]

theorem decodeFamilyE_eq_none : decodeFamilyE w = none ↔ (fieldNN w).toNat ∉ [0x9E, 0xA1] := by
  unfold decodeFamilyE
  split <;> simp_all

theorem decodeFamilyF_eq_none :
    decodeFamilyF w = none ↔ (fieldNN w).toNat ∉ [0x07, 0x0A, 0x15, 0x18, 0x1E, 0x29, 0x33, 0x55, 0x65] := by
  unfold decodeFamilyF
  split <;> simp_all

/-- Only the families 0, 8, E and F hold unknown words. -/
theorem decode_eq_none : decode w = none ↔
    (family w = 0x0 ∧ decodeFamily0 w = none) ∨ (family w = 0x8 ∧ decodeFamily8 w = none) ∨
    (family w = 0xE ∧ decodeFamilyE w = none) ∨ (family w = 0xF ∧ decodeFamilyF w = none) := by
  have hlt : family w < 16 := BitVec.isLt _
  interval_cases hf : family w <;> simp [decode, hf]

/-! ### The opcode table (30_encoding R88) -/

/-- The table's row of an instruction fixes bits that its word has. -/
theorem opcodeRow_holds_encode (i : Instr) : (opcodeRow i).holds (encode i) = true :=
  open Laws.TableRow in
  match i with
  | .cls => cls | .ret => ret | .jp _ => jp _ | .call _ => call _ | .seByte _ _ => seByte _ _ | .sneByte _ _ => sneByte _ _
  | .seReg _ _ _ => seReg _ _ _ | .ldByte _ _ => ldByte _ _ | .addByte _ _ => addByte _ _ | .ldReg _ _ => ldReg _ _
  | .orReg _ _ => orReg _ _ | .andReg _ _ => andReg _ _ | .xorReg _ _ => xorReg _ _ | .addReg _ _ => addReg _ _
  | .subReg _ _ => subReg _ _ | .shr _ _ => shr _ _ | .subn _ _ => subn _ _ | .shl _ _ => shl _ _
  | .sneReg _ _ _ => sneReg _ _ _ | .ldI _ => ldI _ | .jpV0 _ => jpV0 _ | .rnd _ _ => rnd _ _ | .drw _ _ _ => drw _ _ _
  | .skp _ => skp _ | .sknp _ => sknp _ | .ldVxDT _ => ldVxDT _ | .ldVxK _ => ldVxK _ | .ldDTVx _ => ldDTVx _
  | .ldSTVx _ => ldSTVx _ | .addI _ => addI _ | .ldF _ => ldF _ | .ldB _ => ldB _ | .dump _ => dump _ | .load _ => load _

/-- A field that a mask keeps whole is the masked word's. -/
theorem extractLsb'_eq_of_and {start len : Nat} (h : w &&& m = v) (hm : m.extractLsb' start len = BitVec.allOnes len) :
    w.extractLsb' start len = v.extractLsb' start len := by
  rw [← h, BitVec.extractLsb'_and, hm, BitVec.and_allOnes]

theorem family_eq_of_and (h : w &&& m = v) (hm : m.extractLsb' 12 4 = BitVec.allOnes 4) : family w = v.toNat / 4096 :=
  (congrArg BitVec.toNat (extractLsb'_eq_of_and h hm)).trans (family_eq v)

theorem fieldN_eq_of_and (h : w &&& m = v) (hm : m.extractLsb' 0 4 = BitVec.allOnes 4) : fieldN w = v.toNat % 16 :=
  (congrArg BitVec.toNat (extractLsb'_eq_of_and h hm)).trans (fieldN_eq v)

theorem toNat_fieldNN_eq_of_and (h : w &&& m = v) (hm : m.extractLsb' 0 8 = BitVec.allOnes 8) :
    (fieldNN w).toNat = v.toNat % 256 :=
  (congrArg BitVec.toNat (extractLsb'_eq_of_and h hm)).trans (toNat_fieldNN v)

/-- Every word that matches a row decodes to an instruction of that row: a row's mask keeps all that the decoder selects by. -/
theorem exists_decode_of_holds (h : (opcodeRow i).holds w = true) : ∃ j, decode w = some j ∧ opcodeRow j = opcodeRow i := by
  replace h : w &&& (opcodeRow i).mask = (opcodeRow i).fixed := of_decide_eq_true h
  cases i with
  | cls | ret =>
    obtain rfl : w = _ := (BitVec.and_allOnes (x := w)).symm.trans h
    exact ⟨_, rfl, rfl⟩
  | jp | call | seByte | sneByte | seReg | ldByte | addByte | sneReg | ldI | jpV0 | rnd | drw =>
    simp only [opcodeRow] at h ⊢
    have hf := family_eq_of_and h (by decide)
    simp [decode, hf]
  | ldReg | orReg | andReg | xorReg | addReg | subReg | shr | subn | shl =>
    simp only [opcodeRow] at h ⊢
    have hf := family_eq_of_and h (by decide)
    have hn := fieldN_eq_of_and h (by decide)
    simp [decode, hf, decodeFamily8, hn]
  | skp | sknp | ldVxDT | ldVxK | ldDTVx | ldSTVx | addI | ldF | ldB | dump | load =>
    simp only [opcodeRow] at h ⊢
    have hf := family_eq_of_and h (by decide)
    have hn := toNat_fieldNN_eq_of_and h (by decide)
    simp [decode, hf, decodeFamilyE, decodeFamilyF, hn]

/-- A row matches exactly the words of its instructions. -/
theorem opcodeRow_holds_iff : (opcodeRow i).holds w = true ↔ ∃ j, decode w = some j ∧ opcodeRow j = opcodeRow i := by
  refine ⟨exists_decode_of_holds, ?_⟩
  rintro ⟨j, hj, hrow⟩
  have h := opcodeRow_holds_encode j
  rwa [encode_of_decode hj, hrow] at h

theorem opcodeRow_mem_opcodeTable (i : Instr) : opcodeRow i ∈ opcodeTable := by
  cases i <;> (simp only [opcodeRow]; decide)

theorem nodup_opcodeTable : opcodeTable.Nodup := by decide

/-- Every row of the table is some instruction's. -/
theorem exists_opcodeRow_of_mem {r : OpcodeRow} (h : r ∈ opcodeTable) : ∃ i, opcodeRow i = r := by
  obtain ⟨i, -, hi⟩ := List.mem_map.1 h
  exact ⟨i, hi⟩

theorem rowsMatching_of_decode_eq_some (h : decode w = some i) : rowsMatching w = 1 := by
  have honly : ∀ r ∈ opcodeTable, r.holds w = true ↔ (r == opcodeRow i) = true := by
    intro r hr
    obtain ⟨j, rfl⟩ := exists_opcodeRow_of_mem hr
    simpa [opcodeRow_holds_iff, h] using eq_comm
  rw [rowsMatching, List.countP_congr honly]
  exact List.count_eq_one_of_mem nodup_opcodeTable (opcodeRow_mem_opcodeTable i)

theorem rowsMatching_of_decode_eq_none (h : decode w = none) : rowsMatching w = 0 := by
  refine List.countP_eq_zero.2 fun r hr => ?_
  obtain ⟨j, rfl⟩ := exists_opcodeRow_of_mem hr
  simp [opcodeRow_holds_iff, h]

/-! ### Words as bytes (20_memory R52) -/

theorem decode_of_decodeBytes {hi lo : Byte} {bs rest : List Byte} (h : decodeBytes (hi :: lo :: bs) = .instr i rest) :
    decode (bigEndian hi lo) = some i := by
  simp only [decodeBytes] at h
  split at h <;> cases h
  assumption

theorem decode_of_decodeTableWord {nbits n : Nat} (h : decodeTableWord nbits n = some i) :
    decode (tableWord nbits n) = some i := by
  unfold decodeTableWord at h
  split at h <;> cases h
  rename_i hb
  exact Machine.bigEndian_wordBytes (tableWord nbits n) ▸ decode_of_decodeBytes hb

end Encoding
end Sys2Proof

namespace Sys2Proof.Machine

/-! ### The cycle of a fetched word (30_encoding R70) -/

section Cycle

variable {s : State} {w : Word} {f : Fault}

theorem step_of_halted (h : s.halted = true) : step s = .next s := by
  rw [step, if_pos h]

theorem step_of_fetchWord_eq_error (hs : s.halted = false) (h : fetchWord s = .error f) : step s = .next (s.raise f none) := by
  simp [step, hs, h]

theorem step_of_unknown (h : FetchesWord s w) (hd : decode w = none) : step s = .next (s.raise .unknownOpcode (some w)) := by
  obtain ⟨hs, hw⟩ := fetchesWord_iff.1 h
  simp [step, hs, hw, hd]

theorem fetchWord_of_odd (hc : s.config.oddFetch = .fault) (ho : s.pc.toNat % 2 = 1) :
    fetchWord s = .error .misalignedFetch := by
  rw [fetchWord, if_pos ⟨hc, (odd_iff _).2 ho⟩]

/-- The range check comes after the check of an odd pc (D31). -/
theorem fetchWord_of_out_of_range (hc : s.config.oddFetch = .fault → s.pc.toNat % 2 = 0) (hpc : 0xFFF < s.pc.toNat + 1) :
    fetchWord s = .error .fetchOutOfRange := by
  have heven : ¬ (s.config.oddFetch = .fault ∧ s.pc.getLsbD 0 = true) := by
    rintro ⟨hf, ho⟩
    have := hc hf
    have := (odd_iff _).1 ho
    omega
  rw [fetchWord, if_neg heven, if_pos hpc]

/-! ### A placed word (log entry 12) -/

theorem halted_readyToFetch (s : State) : s.readyToFetch.halted = false := by
  unfold State.readyToFetch
  split
  · exact (‹_ ∧ _›).1
  · rfl

/-- PROGRAM_BASE passes both checks of the fetch. -/
theorem fetchWord_at_programBase (hpc : s.pc = 0x200) : ∃ v, fetchWord s = .ok v :=
  ⟨_, fetchWord_eq_ok.2 ⟨by simp [hpc], by simp [hpc], rfl⟩⟩

theorem fetchWord_readyToFetch (s : State) : ∃ v, fetchWord s.readyToFetch = .ok v := by
  by_cases hok : (fetchWord s).isOk = true
  · -- halted or not, the fetch reads the same
    have hsame : fetchWord s.readyToFetch = fetchWord s := by
      unfold State.readyToFetch
      simp only [hok]
      split <;> rfl
    rw [hsame]
    cases hf : fetchWord s with
    | ok v => exact ⟨v, rfl⟩
    | error f => rw [hf] at hok; cases hok
  · refine fetchWord_at_programBase ?_
    simp [State.readyToFetch, hok]

/-- A word written over the fetched one is fetched instead: the checks do not look at the bytes. -/
theorem fetchWord_writeBytes_wordBytes {v : Word} (h : fetchWord s = .ok v) (w : Word) :
    fetchWord (s.writeBytes s.pc.toNat (wordBytes w)) = .ok w := by
  obtain ⟨hodd, hpc, -⟩ := fetchWord_eq_ok.1 h
  refine fetchWord_eq_ok.2 ⟨by simpa using hodd, by simpa using hpc, ?_⟩
  simp [State.readByte_writeBytes, wordBytes, bigEndian_wordBytes]

theorem fetchesWord_withFetchWord (s : State) (nbits n : Nat) :
    FetchesWord (s.withFetchWord nbits n) (tableWord nbits n) := by
  obtain ⟨v, hv⟩ := fetchWord_readyToFetch s
  exact fetchesWord_iff.2 ⟨(State.writeBytes_halted ..).trans (halted_readyToFetch s), fetchWord_writeBytes_wordBytes hv _⟩

end Cycle

/-! ### The obligations -/

/-- Settles O1: each word is evaluated. -/
theorem wordsOfTheSpecDecode : Obligations.WordsOfTheSpecDecode := by
  unfold Obligations.WordsOfTheSpecDecode
  decide

/-- Settles O2: each format's fields are read back from its packed word. -/
theorem decodeReadsBackEncode : Obligations.DecodeReadsBackEncode :=
  fun _ => decode_encode

/-- Settles O3. -/
theorem encodeGivesBackTheWord : Obligations.EncodeGivesBackTheWord :=
  fun _ _ h => ⟨wellFormed_of_decode h, encode_of_decode h⟩

/-- Settles O4: the four families that hold unknown words, each with its selector. -/
theorem unknownWordsAreTheListedOnes : Obligations.UnknownWordsAreTheListedOnes := by
  intro w
  rw [decode_eq_none, decodeFamily0_eq_none, decodeFamily8_eq_none, decodeFamilyE_eq_none, decodeFamilyF_eq_none,
    family_eq, fieldN_eq, toNat_fieldNN]

/-- Settles O5: a row matches exactly the words of its instructions, and the rows are distinct. -/
theorem oneTableRowPerInstructionWord : Obligations.OneTableRowPerInstructionWord := by
  intro w
  cases h : decode w with
  | none => exact rowsMatching_of_decode_eq_none h
  | some i =>
    exact ⟨opcodeRow_holds_iff.2 ⟨i, h, rfl⟩, opcodeRow_mem_opcodeTable i, rowsMatching_of_decode_eq_some h⟩

/-- Settles O6, one lemma for each way a cycle can go. -/
theorem stepFollowsTheCycle : Obligations.StepFollowsTheCycle := fun _ =>
  ⟨step_of_halted,
    fun hs hc ho => step_of_fetchWord_eq_error hs (fetchWord_of_odd hc ho),
    fun hs hc hpc => step_of_fetchWord_eq_error hs (fetchWord_of_out_of_range hc hpc),
    fun _ => step_of_unknown,
    fun w _ hw hd => step_of_runs ⟨w, hw, hd⟩⟩

/-- Settles O7: the two bytes at pc are the word the cycle fetches. -/
theorem stepRunsTheDecodedInstruction : Obligations.StepRunsTheDecodedInstruction := by
  rintro s i - hs hc hpc ⟨rest, h⟩
  exact step_of_runs ⟨_, ⟨hs, hc, hpc, toNat_bigEndian _ _⟩, decode_of_decodeBytes h⟩

/-- Settles O8: the placed word is what the next cycle fetches, whatever stopped the fetch before. -/
theorem placedWordIsRunNext : Obligations.PlacedWordIsRunNext := by
  intro s nbits w i h
  exact step_of_runs ⟨_, fetchesWord_withFetchWord s nbits w, decode_of_decodeTableWord h⟩

end Sys2Proof.Machine
end

section
/-! The words of a format and the committed cycle of a body, said once; then returns, jumps, calls and skips. The obligations
of the family 40_control_flow. -/

namespace Sys2Proof.Machine

/-! ### The words of a format (30_encoding R74) -/

section Formats

variable {f : BitVec 4}

/-- Where an instruction made of a word's fields has that word, the word decodes to it. -/
theorem encodedBy_of_encode {p : Word → Prop} {mk : Word → Instr} (hwf : ∀ w, (mk w).wellFormed = true)
    (h : ∀ w, p w → encode (mk w) = w) : EncodedBy p mk := fun w hw => by
  rw [← decode_encode (hwf w), h w hw]

theorem eq_ofNat_family {w : Word} (hw : family w = f.toNat) : f = BitVec.ofNat 4 (family w) := by
  simp [hw]

theorem encodedBy_packNNN {mk : BitVec 12 → Instr} (hwf : ∀ nnn, (mk nnn).wellFormed = true)
    (h : ∀ nnn, encode (mk nnn) = packNNN f nnn) : EncodedBy (family · = f.toNat) (fun w => mk (fieldNNN w)) :=
  encodedBy_of_encode (fun _ => hwf _) fun w hw => by
    rw [h, eq_ofNat_family hw, packNNN_fields]

theorem encodedBy_packXNN {mk : Reg → Byte → Instr} (hwf : ∀ x nn, (mk x nn).wellFormed = true)
    (h : ∀ x nn, encode (mk x nn) = packXNN f x nn) :
    EncodedBy (family · = f.toNat) (fun w => mk (fieldX w) (fieldNN w)) :=
  encodedBy_of_encode (fun _ => hwf _ _) fun w hw => by
    rw [h, eq_ofNat_family hw, packXNN_fields]

theorem encodedBy_packXYN {mk : Reg → Reg → BitVec 4 → Instr} (hwf : ∀ x y n, (mk x y n).wellFormed = true)
    (h : ∀ x y n, encode (mk x y n) = packXYN f x y n) :
    EncodedBy (family · = f.toNat) (fun w => mk (fieldX w) (fieldY w) (fieldLow w)) :=
  encodedBy_of_encode (fun _ => hwf _ _ _) fun w hw => by
    rw [h, eq_ofNat_family hw, packXYN_fields]

end Formats

section Cycle

variable {i : Instr} {s t : State} {f : Fault} {k : Fin 16} {nnn : BitVec 12}

/-! ### The cycle of a body that commits or raises (30_encoding R70) -/

theorem exec_of_body_eq_ok (h : body i (s.latch (encode i)) = .ok t) : exec i s = .next t :=
  (exec_eq_commit_body i s).trans (commit_ok h)

theorem exec_of_body_eq_error (h : body i (s.latch (encode i)) = .error f) :
    exec i s = .next (s.raise f (some (encode i))) :=
  (exec_eq_commit_body i s).trans (commit_error h)

/-! ### Returns and calls (40_control_flow R100, R102) -/

theorem body_ret_of_empty (h : s.sp.val = 0) : body .ret s = .error .stackUnderflow := by
  rw [body, pop_empty h]

theorem body_ret_of_entry (h : s.sp.val = k.val + 1) :
    body .ret s = .ok (({ s with sp := k.castSucc } : State).setPc s.stack[k.val]) := by
  rw [body, pop_ok k.isLt h]
  rfl

theorem body_call_of_full (h : s.sp.val = 16) : body (.call nnn) s = .error .stackOverflow := by
  rw [body, push_full h]

theorem body_call_of_room (h : s.sp = k.castSucc) : body (.call nnn) s =
    .ok (({ s with stack := s.stack.set k.val s.pc, sp := k.succ } : State).setPc (BitVec.ofNat 16 nnn.toNat)) := by
  have hk : s.sp.val = k.val := congrArg Fin.val h
  rw [body, push_ok (hk ▸ k.isLt), ← immAddr_eq]
  simp only [hk]
  rfl

/-- A return from an entry at `k`: the entry goes to pc and stays on the stack. -/
theorem exec_ret_of_entry (h : s.sp.val = k.val + 1) :
    exec .ret s = .next { s.latch 0x00EE#16 with sp := k.castSucc, pc := s.stack[k.val] } :=
  exec_of_body_eq_ok (body_ret_of_entry (s := s.latch _) h)

/-- A call with `k` entries on the stack: the address after it becomes the entry at `k`. -/
theorem exec_call_of_room (h : s.sp = k.castSucc) : exec (.call nnn) s = .next { s.latch (encode (.call nnn)) with
    stack := s.stack.set k.val (s.pc + 2), sp := k.succ, pc := BitVec.ofNat 16 nnn.toNat } :=
  exec_of_body_eq_ok (body_call_of_room (s := s.latch _) h)

/-! ### Skips (R103 to R106) -/

section Skips

variable {a b : Byte}

theorem exec_of_skipIf_eq (h : body i (s.latch (encode i)) = .ok ((s.latch (encode i)).skipIf (decide (a = b)))) :
    exec i s = .next { s.latch (encode i) with pc := if a.toNat = b.toNat then s.pc + 4 else s.pc + 2 } := by
  rw [exec_of_body_eq_ok h, State.skipIf_latch]
  simp only [decide_eq_true_eq, BitVec.toNat_inj]

theorem exec_of_skipIf_ne (h : body i (s.latch (encode i)) = .ok ((s.latch (encode i)).skipIf (decide (a ≠ b)))) :
    exec i s = .next { s.latch (encode i) with pc := if a.toNat = b.toNat then s.pc + 2 else s.pc + 4 } := by
  rw [exec_of_body_eq_ok h, State.skipIf_latch]
  simp only [decide_eq_true_eq, BitVec.toNat_inj, ne_eq, ite_not]

end Skips
end Cycle

/-! ### The obligations -/

/-- Settles O15: the entry the call writes is the one the return reads, and every older entry is another one. -/
theorem returnUndoesCall : Obligations.ReturnUndoesCall := by
  intro nnn s t u hroom hcall hstack hsp
  have hk : s.sp = (⟨s.sp.val, hroom⟩ : Fin 16).castSucc := rfl
  cases hcall.symm.trans (exec_call_of_room hk)
  have hret := exec_ret_of_entry (s := u) (k := ⟨s.sp.val, hroom⟩) (congrArg Fin.val hsp)
  refine ⟨_, hret, rfl, ?_, rfl, fun j hj => ?_⟩
  · simp only [hstack, Vector.getElem_set_self]
  · simp only [State.latch_stack, hstack, Vector.getElem_set_ne _ _ hj.ne']

/-- Settles O10. -/
theorem returnPopsThePc : Obligations.ReturnPopsThePc :=
  ⟨rfl, fun s h => exec_of_body_eq_error (body_ret_of_empty (s := s.latch _) h), fun _ _ => exec_ret_of_entry⟩

/-- Settles O11: the sum with V[0] does not wrap in 16 bits. -/
theorem jumpsWriteThePc : Obligations.JumpsWriteThePc := by
  refine ⟨encodedBy_packNNN (f := 0x1) (fun _ => rfl) fun _ => rfl,
    encodedBy_packNNN (f := 0xB) (fun _ => rfl) fun _ => rfl, fun nnn s => ⟨?_, ?_⟩⟩
  · rw [← immAddr_eq]
    exact exec_of_body_eq_ok rfl
  · rw [← immAddr_add_zext16]
    exact exec_of_body_eq_ok rfl

/-- Settles O12. -/
theorem callPushesTheReturnAddress : Obligations.CallPushesTheReturnAddress :=
  ⟨encodedBy_packNNN (f := 0x2) (fun _ => rfl) fun _ => rfl,
    fun _ s h => exec_of_body_eq_error (body_call_of_full (s := s.latch _) h), fun _ _ _ => exec_call_of_room⟩

/-- Settles O13. -/
theorem skipsOnALiteral : Obligations.SkipsOnALiteral :=
  ⟨encodedBy_packXNN (f := 0x3) (fun _ _ => rfl) fun _ _ => rfl, encodedBy_packXNN (f := 0x4) (fun _ _ => rfl) fun _ _ => rfl,
    fun _ _ _ => ⟨exec_of_skipIf_eq rfl, exec_of_skipIf_ne rfl⟩⟩

/-- Settles O14: the word's low nibble is kept in `opcode` and read by neither body. -/
theorem skipsOnRegisters : Obligations.SkipsOnRegisters :=
  ⟨encodedBy_packXYN (f := 0x5) (fun _ _ _ => rfl) fun _ _ _ => rfl,
    encodedBy_packXYN (f := 0x9) (fun _ _ _ => rfl) fun _ _ _ => rfl,
    fun _ _ _ _ => ⟨exec_of_skipIf_eq rfl, exec_of_skipIf_ne rfl⟩⟩

end Sys2Proof.Machine
end

section
/-! The words of a selected format, the cycle of a body that writes one register or a result and its flag, and the eight-bit
operations over the naturals, each said once. The obligations of the family 41_alu. -/

namespace Sys2Proof.Machine

/-! ### The words of format XYS (30_encoding R74, R78) -/

theorem encodedBy_packXYS {f n : BitVec 4} {mk : Reg → Reg → Instr} (hwf : ∀ x y, (mk x y).wellFormed = true)
    (h : ∀ x y, encode (mk x y) = packXYN f x y n) :
    EncodedBy (fun w => family w = f.toNat ∧ fieldN w = n.toNat) (fun w => mk (fieldX w) (fieldY w)) :=
  encodedBy_of_encode (fun _ => hwf _ _) fun w ⟨hf, hn⟩ => by
    have hlow : n = fieldLow w := BitVec.eq_of_toNat_eq hn.symm
    rw [h, eq_ofNat_family hf, hlow, packXYN_fields]

section Cycle

variable {i : Instr} {s : State} {x : Reg} {result value flag : Byte} {c : Bool}

/-! ### Results and flags (41_alu R120) -/

theorem exec_of_setReg (h : body i (s.latch (encode i)) = .ok ((s.latch (encode i)).setReg x result)) (hr : result = value) :
    exec i s = .next { s.latch (encode i) with V := s.V.set x.val value } :=
  hr ▸ exec_of_body_eq_ok h

/-- The result goes to V[X] first, the flag to VF after it. -/
theorem exec_of_setResultFlag (h : body i (s.latch (encode i)) = .ok ((s.latch (encode i)).setResultFlag x result c))
    (hr : result = value) (hc : flagByte c = flag) :
    exec i s = .next { s.latch (encode i) with V := (s.V.set x.val value).set 15 flag } :=
  hr ▸ hc ▸ exec_of_body_eq_ok h

/-- A result that goes to VF is overwritten by its own flag. -/
theorem flagStays_of_setResultFlag (h : body i (s.latch (encode i)) = .ok ((s.latch (encode i)).setResultFlag VF result c))
    (hc : flagByte c = flag) : FlagStays i s flag := by
  refine ⟨_, exec_of_body_eq_ok h, ?_, fun v hv => ?_⟩
  · rw [State.reg_setResultFlag, if_pos rfl, hc]
  · rw [State.reg_setResultFlag, if_neg hv, if_neg hv, State.reg_latch]

end Cycle

section Arithmetic

variable (a b : Byte)

/-! ### The eight-bit results over the naturals and the integers (R122, R127 to R131) -/

theorem add_eq_ofNat : a + b = BitVec.ofNat 8 ((a.toNat + b.toNat) % 256) :=
  BitVec.eq_of_toNat_eq (by simp)

theorem sub_eq_ofInt : a - b = BitVec.ofInt 8 ((a.toNat : Int) - b.toNat) := by
  refine BitVec.eq_of_toNat_eq ?_
  rw [BitVec.toNat_sub, BitVec.toNat_ofInt]
  have := a.isLt
  have := b.isLt
  omega

theorem ushiftRight_one_eq_ofNat : a >>> 1 = BitVec.ofNat 8 (a.toNat / 2) := by
  refine BitVec.eq_of_toNat_eq ?_
  rw [BitVec.toNat_ushiftRight, Nat.shiftRight_eq_div_pow, BitVec.toNat_ofNat]
  have := a.isLt
  omega

theorem shiftLeft_one_eq_ofNat : a <<< 1 = BitVec.ofNat 8 (2 * a.toNat % 256) := by
  refine BitVec.eq_of_toNat_eq ?_
  rw [BitVec.toNat_shiftLeft, Nat.shiftLeft_eq, BitVec.toNat_ofNat]
  omega

/-! ### The flags as numbers (R127 to R131) -/

theorem flagByte_carryFlag : flagByte (carryFlag a b) = if a.toNat + b.toNat > 255 then 1 else 0 := by
  simp only [flagByte, carryFlag, decide_eq_true_eq]

theorem flagByte_minuendGreater : flagByte (minuendGreater a b) = if a.toNat > b.toNat then 1 else 0 := by
  simp only [flagByte, minuendGreater, decide_eq_true_eq]

theorem flagByte_getLsbD (k : Nat) : flagByte (a.getLsbD k) = BitVec.ofNat 8 (a.toNat / 2 ^ k % 2) := by
  rw [← Nat.toNat_testBit, BitVec.testBit_toNat]
  cases a.getLsbD k <;> rfl

theorem flagByte_shiftedOutRight : flagByte (shiftedOutRight a) = BitVec.ofNat 8 (a.toNat % 2) := by
  rw [shiftedOutRight, flagByte_getLsbD, Nat.pow_zero, Nat.div_one]

/-- Bit 7 is the top bit of a byte. -/
theorem flagByte_shiftedOutLeft : flagByte (shiftedOutLeft a) = BitVec.ofNat 8 (a.toNat / 128) := by
  have htop : a.toNat / 2 ^ 7 % 2 = a.toNat / 128 := by
    have := a.isLt
    omega
  rw [shiftedOutLeft, flagByte_getLsbD, htop]

end Arithmetic

/-! ### The obligations -/

/-- Settles O17. -/
theorem setRegisterToLiteral : Obligations.SetRegisterToLiteral :=
  ⟨encodedBy_packXNN (f := 0x6) (fun _ _ => rfl) fun _ _ => rfl, fun _ _ _ => exec_of_setReg rfl rfl⟩

/-- Settles O18: no flag is in the body, so VF is written only as V[X]. -/
theorem addLiteralWithoutFlag : Obligations.AddLiteralWithoutFlag :=
  ⟨encodedBy_packXNN (f := 0x7) (fun _ _ => rfl) fun _ _ => rfl, fun _ _ _ => exec_of_setReg rfl (add_eq_ofNat _ _)⟩

/-- Settles O19: each of the four bodies writes V[X] and nothing else. -/
theorem copyAndBitwiseWriteNoFlag : Obligations.CopyAndBitwiseWriteNoFlag :=
  ⟨encodedBy_packXYS (f := 0x8) (n := 0x0) (fun _ _ => rfl) fun _ _ => rfl,
    encodedBy_packXYS (f := 0x8) (n := 0x1) (fun _ _ => rfl) fun _ _ => rfl,
    encodedBy_packXYS (f := 0x8) (n := 0x2) (fun _ _ => rfl) fun _ _ => rfl,
    encodedBy_packXYS (f := 0x8) (n := 0x3) (fun _ _ => rfl) fun _ _ => rfl,
    fun _ _ _ => ⟨exec_of_setReg rfl rfl, exec_of_setReg rfl rfl, exec_of_setReg rfl rfl, exec_of_setReg rfl rfl⟩⟩

/-- Settles O20: the sum and its carry are those of the naturals. -/
theorem addWritesResultThenCarry : Obligations.AddWritesResultThenCarry := by
  refine ⟨encodedBy_packXYS (f := 0x8) (n := 0x4) (fun _ _ => rfl) fun _ _ => rfl, ?_⟩
  rintro x y s _ _ rfl rfl
  exact exec_of_setResultFlag rfl (add_eq_ofNat _ _) (flagByte_carryFlag _ _)

/-- Settles O21: the two differ in which operand is the minuend. -/
theorem subtractWritesResultThenStrictFlag : Obligations.SubtractWritesResultThenStrictFlag := by
  refine ⟨encodedBy_packXYS (f := 0x8) (n := 0x5) (fun _ _ => rfl) fun _ _ => rfl,
    encodedBy_packXYS (f := 0x8) (n := 0x7) (fun _ _ => rfl) fun _ _ => rfl, ?_⟩
  rintro x y s _ _ rfl rfl
  exact ⟨exec_of_setResultFlag rfl (sub_eq_ofInt _ _) (flagByte_minuendGreater _ _),
    exec_of_setResultFlag rfl (sub_eq_ofInt _ _) (flagByte_minuendGreater _ _)⟩

/-- Settles O22: the bit dropped is the remainder mod 2 on the right, and the quotient by 128 on the left. -/
theorem shiftsWriteResultThenDroppedBit : Obligations.ShiftsWriteResultThenDroppedBit := by
  refine ⟨encodedBy_packXYS (f := 0x8) (n := 0x6) (fun _ _ => rfl) fun _ _ => rfl,
    encodedBy_packXYS (f := 0x8) (n := 0xE) (fun _ _ => rfl) fun _ _ => rfl, ?_⟩
  rintro x y s _ rfl
  exact ⟨exec_of_setResultFlag rfl (ushiftRight_one_eq_ofNat _) (flagByte_shiftedOutRight _),
    exec_of_setResultFlag rfl (shiftLeft_one_eq_ofNat _) (flagByte_shiftedOutLeft _)⟩

/-- Settles O23: the draw is in the body whatever NN is, and no fact about the generator is used. -/
theorem randomMasksAndAdvances : Obligations.RandomMasksAndAdvances :=
  ⟨encodedBy_packXNN (f := 0xC) (fun _ _ => rfl) fun _ _ => rfl, fun _ _ _ => exec_of_body_eq_ok rfl⟩

/-- Settles O24: each flag is computed from the operands before the result is written, and written after it. -/
theorem flagWinsWhenVFIsTheDestination : Obligations.FlagWinsWhenVFIsTheDestination := by
  rintro y s _ _ rfl rfl
  exact ⟨flagStays_of_setResultFlag rfl (flagByte_carryFlag _ _), flagStays_of_setResultFlag rfl (flagByte_minuendGreater _ _),
    flagStays_of_setResultFlag rfl (flagByte_minuendGreater _ _), flagStays_of_setResultFlag rfl (flagByte_shiftedOutRight _),
    flagStays_of_setResultFlag rfl (flagByte_shiftedOutLeft _)⟩

end Sys2Proof.Machine
end

section
/-! The drawing of a sprite: the rows it reads, the pixels under it, and the screen and flag it leaves, each tied to the body of
`DXYN`. The obligations of the family 42_display. -/

namespace Sys2Proof.Machine

/-! ### The pixels under a sprite (42_display R151) -/

/-- The rows of the sprite at I. -/
def State.spriteRows (s : State) (n : Nat) : List Byte := (List.range n).map fun k => s.readByte (dataAddr s k)

/-- The framebuffer indices the sprite's set bits fall on. -/
def State.coveredPixels (s : State) (x y : Reg) (n : Nat) : List Nat :=
  spritePixels s.fbHeight (spriteColumn s x) (spriteRow s y) 0 (s.spriteRows n)

/-- The screen and the collision flag that drawing the sprite leaves. -/
def State.drawn (s : State) (x y : Reg) (n : Nat) : List Bool × Bool := flipPixels s.fb false (s.coveredPixels x y n)

section Draw

variable {s t u : State} {x y x' y' : Reg} {n : Nat}

theorem State.length_spriteRows : (s.spriteRows n).length = n := by simp [State.spriteRows]

theorem State.getD_spriteRows {k : Nat} (hk : k < n) : (s.spriteRows n).getD k 0 = s.readByte (dataAddr s k) := by
  simp [State.spriteRows, hk]

theorem State.spriteRows_congr (h : ∀ k < n, u.readByte (dataAddr u k) = s.readByte (dataAddr s k)) :
    u.spriteRows n = s.spriteRows n :=
  List.map_congr_left fun k hk => h k (List.mem_range.1 hk)

/-- The same sprite at the same place covers the same pixels, whatever registers hold the place. -/
theorem State.coveredPixels_congr (hx : u.reg x' = s.reg x) (hy : u.reg y' = s.reg y) (hm : u.hiResMode = s.hiResMode)
    (h : ∀ k < n, u.readByte (dataAddr u k) = s.readByte (dataAddr s k)) :
    u.coveredPixels x' y' n = s.coveredPixels x y n := by
  simp only [State.coveredPixels, spriteColumn, spriteRow, State.fbHeight, hx, hy, hm, State.spriteRows_congr h]

/-- A framebuffer index names one column and one row (10_state R32). -/
theorem pixelIndex_eq_iff {h x0 y0 r c px py : Nat} (hpx : px < 64) :
    pixelIndex h x0 y0 r c = py * 64 + px ↔ px = (x0 + c) % 64 ∧ py = (y0 + r) % h := by
  have hcol := Nat.mod_lt (x0 + c) (show 64 > 0 by decide)
  simp only [pixelIndex, Config.fbWidth]
  constructor <;> omega

theorem State.mem_coveredPixels {px py : Nat} (hpx : px < 64) :
    py * 64 + px ∈ s.coveredPixels x y n ↔ SpriteCovers s x y n px py := by
  rw [State.coveredPixels, mem_spritePixels, State.length_spriteRows]
  refine exists_congr fun k => and_congr_right fun hk => exists_congr fun c => and_congr_right fun _ => ?_
  rw [State.getD_spriteRows hk, pixelIndex_eq_iff hpx, Nat.zero_add]
  rfl

theorem State.fbHeight_ge (s : State) : 32 ≤ s.fbHeight := by
  rcases s.fbHeight_cases with h | h <;> omega

theorem State.lt_of_mem_coveredPixels {p : Nat} (hp : p ∈ s.coveredPixels x y n) : p < 64 * s.fbHeight :=
  lt_of_mem_spritePixels (Nat.lt_of_lt_of_le (by decide) s.fbHeight_ge) hp

/-- A sprite of at most 15 rows is lower than the screen, so no two of its bits fall on one pixel. -/
theorem State.nodup_coveredPixels (hn : n ≤ 15) : (s.coveredPixels x y n).Nodup := by
  refine nodup_spritePixels ?_
  have := s.fbHeight_ge
  rw [State.length_spriteRows]
  omega

/-- A pixel under the sprite is one of the screen's, at its column and row. -/
theorem State.exists_mem_coveredPixels {P : Nat → Prop} : (∃ p ∈ s.coveredPixels x y n, P p) ↔
    ∃ px < 64, ∃ py < s.fbHeight, SpriteCovers s x y n px py ∧ P (py * 64 + px) := by
  constructor
  · rintro ⟨p, hp, hP⟩
    have hlt := State.lt_of_mem_coveredPixels hp
    have hsplit : p / 64 * 64 + p % 64 = p := by omega
    have hpx : p % 64 < 64 := by omega
    refine ⟨p % 64, hpx, p / 64, by omega, ?_, ?_⟩
    · rwa [← State.mem_coveredPixels hpx, hsplit]
    · rwa [hsplit]
  · rintro ⟨px, hpx, py, -, hc, hP⟩
    exact ⟨_, (State.mem_coveredPixels hpx).2 hc, hP⟩

/-! ### The screen and the flag after a draw -/

theorem flagByte_eq_one {c : Bool} : flagByte c = 1 ↔ c = true := by cases c <;> decide

theorem flagByte_eq_one_or_zero (c : Bool) : flagByte c = 1 ∨ flagByte c = 0 := by cases c <;> decide

theorem State.length_drawn : (s.drawn x y n).1.length = s.fb.length := length_flipPixels

section Screen

variable (hn : n ≤ 15) (hfb : s.fb.length = 64 * s.fbHeight)

include hn hfb

theorem State.pixel_drawn (p : Nat) :
    pixel (s.drawn x y n).1 p = (pixel s.fb p ^^ decide (p ∈ s.coveredPixels x y n)) :=
  pixel_flipPixels (State.nodup_coveredPixels hn) fun _ hq => hfb ▸ State.lt_of_mem_coveredPixels hq

theorem State.collide_drawn : (s.drawn x y n).2 = true ↔ ∃ p ∈ s.coveredPixels x y n, pixel s.fb p = true := by
  rw [State.drawn, collide_flipPixels (State.nodup_coveredPixels hn) fun _ hq => hfb ▸ State.lt_of_mem_coveredPixels hq,
    Bool.false_or, List.any_eq_true]

/-- A pixel is flipped exactly when the sprite covers it. -/
theorem State.pixel_drawn_eq_true {px py : Nat} (hpx : px < 64) : pixel (s.drawn x y n).1 (py * 64 + px) = true ↔
    ¬ (pixel s.fb (py * 64 + px) = true ↔ SpriteCovers s x y n px py) := by
  rw [State.pixel_drawn hn hfb, ← State.mem_coveredPixels hpx]
  cases pixel s.fb (py * 64 + px) <;> simp

/-- A lit pixel under the sprite is one that the draw turns off. -/
theorem State.collide_drawn_iff_turned_off : (s.drawn x y n).2 = true ↔
    ∃ px < 64, ∃ py < s.fbHeight,
      pixel s.fb (py * 64 + px) = true ∧ pixel (s.drawn x y n).1 (py * 64 + px) = false := by
  rw [State.collide_drawn hn hfb, State.exists_mem_coveredPixels]
  refine exists_congr fun px => and_congr_right fun hpx => exists_congr fun py => and_congr_right fun _ => ?_
  rw [State.pixel_drawn hn hfb, ← State.mem_coveredPixels hpx]
  cases pixel s.fb (py * 64 + px) <;> simp

end Screen

/-! ### The cycle of a draw -/

theorem body_drw_of_out_of_range (hn : 0 < n) (h : 0x1000 < s.I.toNat + n) :
    body (.drw x y n) s = .error (.memoryOutOfRange (max s.I.toNat 0x1000)) := by
  rw [body, dataReads_error (a := dataAddr s 0) h hn]
  rfl

theorem dataReads_spriteRows (h : n = 0 ∨ s.I.toNat + n ≤ 0x1000) : dataReads s (dataAddr s 0) n = .ok (s.spriteRows n) := by
  rcases h with rfl | h
  · rfl
  · exact dataReads_ok h

/-- A draw whose rows lie in range completes: the screen is flipped under the sprite and VF is the collision flag. -/
theorem exec_drw_of_readable (h : n = 0 ∨ s.I.toNat + n ≤ 0x1000) :
    exec (.drw x y n) s = .next { s.latch (encode (.drw x y n)) with
      fb := (s.drawn x y n).1, V := s.V.set 15 (flagByte (s.drawn x y n).2), drawFlag := true } := by
  refine exec_of_body_eq_ok ?_
  rw [body, dataReads_spriteRows (s := s.latch _) h]
  rfl

/-- The screen and the flag of a draw whose rows lie in range. -/
theorem screen_and_flag_of_exec_drw (h : n = 0 ∨ s.I.toNat + n ≤ 0x1000) (he : exec (.drw x y n) s = .next t) :
    t.fb = (s.drawn x y n).1 ∧ t.reg VF = flagByte (s.drawn x y n).2 := by
  cases he.symm.trans (exec_drw_of_readable h)
  exact ⟨rfl, Vector.getElem_set_self _⟩

end Draw

/-! ### The obligations -/

/-- Settles O26: the covered pixels are distinct, so each is flipped once, and the lit ones among them are those turned off. -/
theorem drawFlipsThePixelsUnderTheSprite : Obligations.DrawFlipsThePixelsUnderTheSprite := by
  refine ⟨encodedBy_packXYN (f := 0xD) (mk := fun x y low => .drw x y low.toNat)
      (fun _ _ low => decide_eq_true (Nat.le_of_lt_succ low.isLt)) fun _ _ _ => by simp [encode],
    fun _ _ _ s hn h => exec_of_body_eq_error (body_drw_of_out_of_range (s := s.latch _) hn h),
    fun x y n s hn hfb hr => ⟨_, exec_drw_of_readable hr, ?_, State.length_drawn,
      fun _ hpx _ _ => State.pixel_drawn_eq_true hn hfb hpx, ?_, ?_⟩⟩
  · simp only [Vector.getElem_set_self]
  · simpa only [Vector.getElem_set_self] using flagByte_eq_one_or_zero _
  · simp only [Vector.getElem_set_self, flagByte_eq_one]
    exact State.collide_drawn_iff_turned_off hn hfb

/-- Settles O27: both draws cover the same pixels, so each is flipped back, and it is lit the second time iff it was dark. -/
theorem drawTwiceRestoresTheScreen : Obligations.DrawTwiceRestoresTheScreen := by
  intro x y x' y' n s t u v hn hfb hr ht hscreen hI hx hy hmode hrows hv
  obtain ⟨htfb, -⟩ := screen_and_flag_of_exec_drw hr ht
  obtain ⟨hvfb, hvflag⟩ := screen_and_flag_of_exec_drw (hI ▸ hr) hv
  have hscreen : u.fb = (s.drawn x y n).1 := hscreen.trans htfb
  have hcovered : u.coveredPixels x' y' n = s.coveredPixels x y n := State.coveredPixels_congr hx hy hmode hrows
  have hufb : u.fb.length = 64 * u.fbHeight := by
    rw [hscreen, State.length_drawn, hfb, State.fbHeight, State.fbHeight, hmode]
  have hpixel (p : Nat) : pixel u.fb p = (pixel s.fb p ^^ decide (p ∈ s.coveredPixels x y n)) :=
    hscreen ▸ State.pixel_drawn hn hfb p
  constructor
  · refine ext_pixel (by rw [hvfb, State.length_drawn, hscreen, State.length_drawn]) fun p _ => ?_
    rw [hvfb, State.pixel_drawn hn hufb, hcovered, hpixel, Bool.xor_assoc, Bool.xor_self, Bool.xor_false]
  · rw [hvflag, flagByte_eq_one, State.collide_drawn hn hufb, hcovered,
      ← State.exists_mem_coveredPixels (P := fun p => pixel s.fb p = false)]
    refine exists_congr fun p => and_congr_right fun hp => ?_
    rw [hpixel, decide_eq_true hp, Bool.xor_true, Bool.not_eq_true']

/-- Settles O25. -/
theorem clearScreenDarkensEveryPixel : Obligations.ClearScreenDarkensEveryPixel :=
  ⟨rfl, fun _ => ⟨_, exec_of_body_eq_ok rfl, rfl, List.length_replicate,
    fun _ hp => List.getElem?_replicate.trans (if_pos hp)⟩⟩

end Sys2Proof.Machine
end

section
/-! The words of format XSS, the cycle of a body that writes I, and the cycles that store bytes at I and load registers from
there, each said once. The obligations of the family 43_index_memory. -/

namespace Sys2Proof.Machine

/-! ### The words of format XSS (30_encoding R74) -/

theorem encodedBy_packXSS {f : BitVec 4} {nn : Byte} {mk : Reg → Instr} (hwf : ∀ x, (mk x).wellFormed = true)
    (h : ∀ x, encode (mk x) = packXNN f x nn) :
    EncodedBy (fun w => family w = f.toNat ∧ (fieldNN w).toNat = nn.toNat) (fun w => mk (fieldX w)) :=
  encodedBy_of_encode (fun _ => hwf _) fun w ⟨hf, hn⟩ => by
    have hnn : nn = fieldNN w := BitVec.eq_of_toNat_eq hn.symm
    rw [h, eq_ofNat_family hf, hnn, packXNN_fields]

section Cycle

variable {i : Instr} {s : State} {x : Reg} {value result : Word} {vs : List Byte} {k : Nat}

/-! ### The index register (43_index_memory R160 to R162) -/

theorem exec_of_setI (h : body i (s.latch (encode i)) = .ok ((s.latch (encode i)).setI result)) (hr : result = value) :
    exec i s = .next { s.latch (encode i) with I := value } :=
  hr ▸ exec_of_body_eq_ok h

theorem add_zext16_eq_ofNat (w : Word) (b : Byte) : w + zext16 b = BitVec.ofNat 16 ((w.toNat + b.toNat) % 65536) :=
  BitVec.eq_of_toNat_eq (by simp [zext16])

theorem glyphAddr_eq : glyphAddr s x =
    BitVec.ofNat 16 s.config.fontBase.addr + 5 * BitVec.ofNat 16 ((s.reg x).toNat % 16) := by
  rw [glyphAddr, BitVec.ofNat_add, BitVec.ofNat_mul]
  rfl

/-! ### Stores at I (R163, R164) -/

theorem toNat_getD_bcdDigits (b : Byte) : ((bcdDigits b).getD 0 0).toNat = b.toNat / 100 ∧
    ((bcdDigits b).getD 1 0).toNat = b.toNat / 10 % 10 ∧ ((bcdDigits b).getD 2 0).toNat = b.toNat % 10 := by
  have hdigit {d : Nat} (hd : d < 256) : (BitVec.ofNat 8 d).toNat = d := Nat.mod_eq_of_lt hd
  have hlt := b.isLt
  exact ⟨hdigit (by omega), hdigit (by omega), hdigit (by omega)⟩

section Stores

variable (h : body i (s.latch (encode i)) = dataWrites (s.latch (encode i)) (dataAddr s 0) vs)

include h

theorem exec_of_dataWrites_first (hk : FirstForbidden s (dataAddr s 0) vs.length k) :
    exec i s = .next (s.raise (writeFault (dataAddr s k)) (some (encode i))) :=
  exec_of_body_eq_error (h.trans (dataWrites_first (s := s.latch _) hk))

/-- Stores that are all allowed commit: each byte is at its own address, and nothing else but pc and `opcode` changed. -/
theorem exec_of_dataWrites_allowed (hw : ∀ k < vs.length, WriteAllowed s (dataAddr s k)) :
    ∃ t, exec i s = .next t ∧ t = { s.latch (encode i) with mem := t.mem } ∧
      (∀ k < vs.length, t.readByte (dataAddr s k) = vs.getD k 0) ∧
      ∀ a, (∀ k < vs.length, a ≠ dataAddr s k) → t.readByte a = s.readByte a := by
  have hwritable : writable (s.latch (encode i)) (dataAddr s 0) vs.length := fun k hk => writeAllowed_iff.1 (hw k hk)
  refine ⟨_, exec_of_body_eq_ok (h.trans (dataWrites_ok hwritable)), State.writeBytes_eq _ _, fun k hk => ?_, fun a ha => ?_⟩
  · have haddr : dataAddr s k = dataAddr s 0 + k := rfl
    rw [haddr, State.readByte_writeBytes, if_pos (by omega), Nat.add_sub_cancel_left]
  · have hout : ¬ (dataAddr s 0 ≤ a ∧ a < dataAddr s 0 + vs.length) := fun ⟨hle, hlt⟩ =>
      ha (a - dataAddr s 0) (by omega) (Nat.add_sub_cancel' hle).symm
    rw [State.readByte_writeBytes, if_neg hout, State.readByte_latch]

end Stores

/-! ### Loads from I (R165) -/

theorem body_load_of_out_of_range (h : 0xFFF < s.I.toNat + x.val) :
    body (.load x) s = .error (.memoryOutOfRange (max s.I.toNat 0x1000)) := by
  have hover : 0x1000 < dataAddr s 0 + (x.val + 1) := Nat.succ_lt_succ h
  rw [body, dataReads_error hover (Nat.succ_pos _)]
  rfl

theorem body_load_of_in_range (h : s.I.toNat + x.val ≤ 0xFFF) : body (.load x) s =
    .ok (s.setRegs 0 ((List.range (x.val + 1)).map fun k => s.readByte (dataAddr s k))) := by
  have hin : dataAddr s 0 + (x.val + 1) ≤ 0x1000 := Nat.succ_le_succ h
  rw [body, dataReads_ok hin]
  rfl

/-- A load whose bytes lie in range commits: V[0] to V[X] are the bytes, and nothing else but pc and `opcode` changed. -/
theorem exec_load_of_in_range (h : s.I.toNat + x.val ≤ 0xFFF) :
    ∃ t, exec (.load x) s = .next t ∧ t = { s.latch (encode (.load x)) with V := t.V } ∧
      ∀ r, t.reg r = if r ≤ x then s.readByte (dataAddr s r.val) else s.reg r := by
  refine ⟨_, exec_of_body_eq_ok (body_load_of_in_range (s := s.latch _) h), State.setRegs_eq _ _, fun r => ?_⟩
  rw [State.reg_setRegs, List.length_map, List.length_range]
  by_cases hr : r ≤ x
  · have hlt : r.val < x.val + 1 := Nat.lt_succ_of_le hr
    rw [if_pos hr, if_pos (by omega)]
    simp [hlt, dataAddr]
  · have hge : ¬ r.val < x.val + 1 := fun hlt => hr (Nat.le_of_lt_succ hlt)
    rw [if_neg hr, if_neg (by omega), State.reg_latch]

end Cycle

/-! ### The obligations -/

/-- Settles O31: a byte has three decimal digits, each of which fits a byte. -/
theorem storeDecimalDigits : Obligations.StoreDecimalDigits := by
  refine ⟨encodedBy_packXSS (f := 0xF) (nn := 0x33) (fun _ => rfl) fun _ => rfl,
    fun x s _ hk => exec_of_dataWrites_first (vs := bcdDigits (s.reg x)) rfl hk, ?_⟩
  rintro x s _ rfl hw
  obtain ⟨t, ht, hframe, (hbytes : ∀ k < 3, t.readByte (dataAddr s k) = (bcdDigits (s.reg x)).getD k 0), hrest⟩ :=
    exec_of_dataWrites_allowed (i := .ldB x) (vs := bcdDigits (s.reg x)) rfl hw
  obtain ⟨hhundreds, htens, hunits⟩ := toNat_getD_bcdDigits (s.reg x)
  have hdigit (k : Nat) (hk : k < 3) {d : Nat} (hd : ((bcdDigits (s.reg x)).getD k 0).toNat = d) :
      (t.readByte (dataAddr s k)).toNat = d := (congrArg BitVec.toNat (hbytes k hk)).trans hd
  exact ⟨t, ht, hframe, hdigit 0 (by decide) hhundreds, hdigit 1 (by decide) htens, hdigit 2 (by decide) hunits, hrest⟩

/-- Settles O32: the stored bytes are V[0] to V[X], X + 1 of them. -/
theorem dumpRegisters : Obligations.DumpRegisters := by
  refine ⟨encodedBy_packXSS (f := 0xF) (nn := 0x55) (fun _ => rfl) fun _ => rfl,
    fun x s k hk => exec_of_dataWrites_first (vs := s.regsUpTo x) rfl (State.length_regsUpTo ▸ hk), fun x s hw => ?_⟩
  have hcount (k : Nat) : k < (s.regsUpTo x).length ↔ k ≤ x.val := by rw [State.length_regsUpTo, Nat.lt_succ_iff]
  obtain ⟨t, ht, hframe, hbytes, hrest⟩ := exec_of_dataWrites_allowed (i := .dump x) (vs := s.regsUpTo x) rfl
    fun k hk => hw k ((hcount k).1 hk)
  exact ⟨t, ht, hframe, fun r hr => (hbytes r.val ((hcount _).2 hr)).trans (State.getD_regsUpTo hr),
    fun a ha => hrest a fun k hk => ha k ((hcount k).1 hk)⟩

/-- Settles O33. -/
theorem loadRegisters : Obligations.LoadRegisters := by
  refine ⟨encodedBy_packXSS (f := 0xF) (nn := 0x65) (fun _ => rfl) fun _ => rfl,
    fun _ s h => exec_of_body_eq_error (body_load_of_out_of_range (s := s.latch _) h), fun x s h => ?_⟩
  obtain ⟨t, ht, hframe, hregs⟩ := exec_load_of_in_range h
  exact ⟨t, ht, hframe, fun r hr => (hregs r).trans (if_pos hr), fun r hr => (hregs r).trans (if_neg (not_le_of_gt hr))⟩

/-- Settles O34: a committed dump's addresses are in range, so the load commits too, and it reads the bytes the dump stored. -/
theorem loadReadsBackDump : Obligations.LoadReadsBackDump := by
  intro x s t u v hdump ht hmem hconfig hI hload r hr
  obtain ⟨hrange, -⟩ := readByte_of_exec_dump hdump ht (Nat.le_refl x.val)
  obtain ⟨-, hstored⟩ := readByte_of_exec_dump hdump ht hr
  have haddr (k : Nat) : dataAddr u k = dataAddr s k := by rw [dataAddr, hI, dataAddr]
  obtain ⟨v', hv', -, hregs⟩ := exec_load_of_in_range (s := u) (haddr x.val ▸ hrange)
  cases hload.symm.trans hv'
  calc v.reg r = u.readByte (dataAddr u r.val) := (hregs r).trans (if_pos hr)
    _ = t.readByte (dataAddr s r.val) := by rw [haddr, State.readByte_congr hmem hconfig]
    _ = s.reg r := hstored.trans State.getD_toList_V

/-- Settles O28. -/
theorem setIndexToLiteral : Obligations.SetIndexToLiteral :=
  ⟨encodedBy_packNNN (f := 0xA) (fun _ => rfl) fun _ => rfl, fun _ _ => exec_of_setI rfl (immAddr_eq _)⟩

/-- Settles O29: the sum of 16 bits wraps, and the body has no flag and no fault. -/
theorem addToIndexWraps : Obligations.AddToIndexWraps :=
  ⟨encodedBy_packXSS (f := 0xF) (nn := 0x1E) (fun _ => rfl) fun _ => rfl,
    fun _ _ => exec_of_setI rfl (add_zext16_eq_ofNat _ _)⟩

/-- Settles O30: the address is the same sum over the naturals and in 16 bits, at each FONT_BASE. -/
theorem pointIndexAtGlyph : Obligations.PointIndexAtGlyph := by
  refine ⟨encodedBy_packXSS (f := 0xF) (nn := 0x29) (fun _ => rfl) fun _ => rfl,
    fun x s => exec_of_setI rfl ((glyphAddr_eq (s := s)).trans ?_)⟩
  cases s.config.fontBase <;> rfl

end Sys2Proof.Machine
end

section
/-! The cycle of a skip on a held key, and the two ways of `FX0A`, each said once. The obligations of the family
44_keypad_timer. -/

namespace Sys2Proof.Machine

section Cycle

variable {i : Instr} {s : State} {x : Reg} {k : Key} {ks : List Key} {c : Bool}

/-! ### Skips on a key (44_keypad_timer R180, R182, R183) -/

theorem exec_of_skipIf (h : body i (s.latch (encode i)) = .ok ((s.latch (encode i)).skipIf c)) :
    exec i s = .next { s.latch (encode i) with pc := if c then s.pc + 4 else s.pc + 2 } := by
  rw [exec_of_body_eq_ok h, State.skipIf_latch]

theorem exec_of_skipIf_not (h : body i (s.latch (encode i)) = .ok ((s.latch (encode i)).skipIf (!c))) :
    exec i s = .next { s.latch (encode i) with pc := if c then s.pc + 2 else s.pc + 4 } := by
  rw [exec_of_skipIf h]
  cases c <;> rfl

theorem body_skp_of_key (h : (s.reg x).toNat = k.val) : body (.skp x) s = .ok (s.skipIf (s.keyHeld k)) := by
  rw [body, keyOperand_ok h]

theorem body_sknp_of_key (h : (s.reg x).toNat = k.val) : body (.sknp x) s = .ok (s.skipIf (!s.keyHeld k)) := by
  rw [body, keyOperand_ok h]

theorem body_skp_of_no_key (h : 15 < (s.reg x).toNat) :
    body (.skp x) s = .error (.keyIndexOutOfRange (s.reg x).toNat) := by
  rw [body, keyOperand_error h]

theorem body_sknp_of_no_key (h : 15 < (s.reg x).toNat) :
    body (.sknp x) s = .error (.keyIndexOutOfRange (s.reg x).toNat) := by
  rw [body, keyOperand_error h]

/-! ### The wait for a key (R181, R185) -/

/-- The held keys are listed ascending, so the lowest held key stands first. -/
theorem State.heldKeys_eq_cons_of_lowest (hk : s.key[k.val] = true) (hlow : ∀ j : Key, j < k → s.key[j.val] = false) :
    ∃ ks, s.heldKeys = k :: ks := by
  have hmem : k ∈ s.heldKeys := State.mem_heldKeys.2 hk
  have hsorted := s.heldKeys_sorted
  cases hheld : s.heldKeys with
  | nil => simp [hheld] at hmem
  | cons j ks =>
    rw [hheld] at hmem hsorted
    rcases List.mem_cons.1 hmem with rfl | htail
    · exact ⟨ks, rfl⟩
    · have hlt : j < k := List.rel_of_pairwise_cons hsorted htail
      have hj : s.keyHeld j = true := State.mem_heldKeys.1 (hheld ▸ List.mem_cons_self)
      cases hj.symm.trans (hlow j hlt)

theorem State.exists_heldKeys_eq_cons (hk : s.key[k.val] = true) : ∃ j ks, s.heldKeys = j :: ks :=
  List.exists_cons_of_ne_nil (List.ne_nil_of_mem (State.mem_heldKeys.2 hk))

theorem body_ldVxK_of_no_key (h : s.heldKeys = []) : body (.ldVxK x) s = .ok (s.setPc (s.pc - 2)) := by
  rw [body, h]

theorem body_ldVxK_of_key (h : s.heldKeys = k :: ks) :
    body (.ldVxK x) s = .ok ((keySelect s k ks).2.setReg x (BitVec.ofNat 8 (keySelect s k ks).1.val)) := by
  rw [body, h]

/-- With no key held the cycle takes back the fetch's step of pc, so `opcode` is all that changed. -/
theorem exec_ldVxK_of_no_key (h : ∀ k : Key, s.key[k.val] = false) :
    exec (.ldVxK x) s = .next { s with opcode := encode (.ldVxK x) } := by
  have hheld : (s.latch (encode (.ldVxK x))).heldKeys = [] := State.heldKeys_eq_nil.2 h
  rw [exec_of_body_eq_ok (body_ldVxK_of_no_key hheld), State.latch_pc, BitVec.add_sub_cancel]
  rfl

theorem exec_ldVxK_of_lowest (hc : s.config.keySelect = .lowest) (h : s.heldKeys = k :: ks) :
    exec (.ldVxK x) s = .next { s.latch (encode (.ldVxK x)) with V := s.V.set x.val (BitVec.ofNat 8 k.val) } := by
  rw [exec_of_body_eq_ok (body_ldVxK_of_key (s := s.latch _) h), keySelect_lowest (s := s.latch _) hc]
  rfl

/-- Under KEY_SELECT = any the stored key is the free choice, which is one of the held keys, and the choice is counted. -/
theorem exec_ldVxK_of_any (hc : s.config.keySelect = .any) (h : s.heldKeys = k :: ks) :
    ∃ j : Key, s.key[j.val] = true ∧ exec (.ldVxK x) s = .next { s.latch (encode (.ldVxK x)) with
      V := s.V.set x.val (BitVec.ofNat 8 j.val), keyDraws := s.keyDraws + 1 } := by
  refine ⟨(keySelect (s.latch (encode (.ldVxK x))) k ks).1, State.mem_heldKeys.1 (h ▸ keySelect_held), ?_⟩
  rw [exec_of_body_eq_ok (body_ldVxK_of_key (s := s.latch _) h), keySelect_any (s := s.latch _) hc]
  rfl

/-- The word latched in `opcode` decides nothing of the next cycle. -/
theorem Runs.with_opcode (h : Runs s i) (w : Word) : Runs { s with opcode := w } i := h

end Cycle

/-! ### The sound output (60_exceptions R222) -/

theorem State.soundActive_iff {s : State} : s.soundActive = true ↔ s.ST ≠ 0 :=
  decide_eq_true_iff.trans (BitVec.pos_iff_ne_zero _)

/-! ### The obligations -/

/-- Settles O41: the first of the held keys is the lowest one, and a free choice is one of them. -/
theorem waitForAKey : Obligations.WaitForAKey := by
  refine ⟨encodedBy_packXSS (f := 0xF) (nn := 0x0A) (fun _ => rfl) fun _ => rfl, fun _ _ => exec_ldVxK_of_no_key,
    fun x s k hc hk hlow => ?_, fun x s hc ⟨k, hk⟩ => ?_⟩
  · obtain ⟨ks, hheld⟩ := State.heldKeys_eq_cons_of_lowest hk hlow
    exact exec_ldVxK_of_lowest hc hheld
  · obtain ⟨j, ks, hheld⟩ := State.exists_heldKeys_eq_cons hk
    exact exec_ldVxK_of_any hc hheld

/-- Settles O42: the waiting cycle writes only `opcode`, which the next cycle does not read and writes again alike. -/
theorem waitingCycleRepeats : Obligations.WaitingCycleRepeats := by
  intro s t x hruns hkeys hstep
  cases hstep.symm.trans ((step_of_runs hruns).trans (exec_ldVxK_of_no_key hkeys))
  exact ⟨rfl, (step_of_runs (hruns.with_opcode _)).trans (exec_ldVxK_of_no_key hkeys)⟩

/-- Settles O37: the values 0 to 15 name a key, and every other value is the fault's. -/
theorem skipsOnAKey : Obligations.SkipsOnAKey :=
  ⟨encodedBy_packXSS (f := 0xE) (nn := 0x9E) (fun _ => rfl) fun _ => rfl,
    encodedBy_packXSS (f := 0xE) (nn := 0xA1) (fun _ => rfl) fun _ => rfl,
    fun _ s h => ⟨exec_of_body_eq_error (body_skp_of_no_key (s := s.latch _) h),
      exec_of_body_eq_error (body_sknp_of_no_key (s := s.latch _) h)⟩,
    fun _ s _ hk => ⟨exec_of_skipIf (body_skp_of_key (s := s.latch _) hk),
      exec_of_skipIf_not (body_sknp_of_key (s := s.latch _) hk)⟩⟩

/-- Settles O38. -/
theorem readDelayTimer : Obligations.ReadDelayTimer :=
  ⟨encodedBy_packXSS (f := 0xF) (nn := 0x07) (fun _ => rfl) fun _ => rfl, fun _ _ => exec_of_setReg rfl rfl⟩

/-- Settles O39. -/
theorem writeDelayTimer : Obligations.WriteDelayTimer :=
  ⟨encodedBy_packXSS (f := 0xF) (nn := 0x15) (fun _ => rfl) fun _ => rfl, fun _ _ => exec_of_body_eq_ok rfl⟩

/-- Settles O40: the output is read from ST, which the cycle has just set. -/
theorem writeSoundTimer : Obligations.WriteSoundTimer :=
  ⟨encodedBy_packXSS (f := 0xF) (nn := 0x18) (fun _ => rfl) fun _ => rfl,
    fun _ _ => ⟨_, exec_of_body_eq_ok rfl, rfl, State.soundActive_iff⟩⟩

end Sys2Proof.Machine
end

section
/-! The ticks of a running core, the loads and ticks of a halted one, and what raises each fault, said once for the fetch, the
decoder and every body. The obligations of the family 60_exceptions. -/

namespace Sys2Proof.Machine

/-! ### Ticks and loads (60_exceptions R203, R220; 70_reset R243) -/

section Requests

variable {s : State} {image : List Byte}

theorem State.tick_of_halted (h : s.halted = true) : s.tick = s := if_pos h

theorem State.tick_of_running (h : s.halted = false) : s.tick = { s with DT := countDown s.DT, ST := countDown s.ST } := by
  rw [State.tick, h]; rfl

theorem serve_load_of_fits (h : image.length ≤ Config.programMax) :
    serve (.load image) s = .next (.ok, s.writeBytes Config.programBase image) := by
  rw [serve, State.load, if_neg (Nat.not_lt.2 h)]

theorem State.readByte_writeBytes_inside {a k : Nat} (h : k < image.length) :
    (s.writeBytes a image).readByte (a + k) = image.getD k 0 := by
  rw [State.readByte_writeBytes, if_pos (by omega), Nat.add_sub_cancel_left]

end Requests

/-! ### The first failing data access (60_exceptions R205) -/

section Accesses

variable {s : State} {a n : Nat} {vs : List Byte} {f : Fault}

theorem dataReads_eq_error (h : dataReads s a n = .error f) :
    ∃ k < n, 0xFFF < a + k ∧ (∀ j < k, a + j ≤ 0xFFF) ∧ f = .memoryOutOfRange (a + k) := by
  by_cases hin : a + n ≤ 0x1000
  · cases (dataReads_ok hin).symm.trans h
  · have hn : 0 < n := Nat.pos_of_ne_zero fun e => by subst e; cases h
    cases (dataReads_error (by omega) hn).symm.trans h
    exact ⟨0x1000 - a, by omega, by omega, fun j hj => by omega, congrArg _ (by omega)⟩

theorem dataWrites_eq_error_first (h : dataWrites s a vs = .error f) :
    ∃ k, FirstForbidden s a vs.length k ∧ f = writeFault (a + k) := by
  obtain ⟨k, hk, hbefore, hfault⟩ := dataWrites_eq_error h
  have hforbidden : ¬ WriteAllowed s (a + k) := fun hw => by
    obtain ⟨hrange, hfont⟩ := writeAllowed_iff.1 hw
    rcases hfault with ⟨hout, -⟩ | ⟨-, hstop, -⟩
    · omega
    · exact hfont hstop
  have hfirst : FirstForbidden s a vs.length k := ⟨hk, fun j hj => writeAllowed_iff.2 (hbefore j hj), hforbidden⟩
  exact ⟨k, hfirst, Except.error.inj (h.symm.trans (dataWrites_first hfirst))⟩

/-- An address in range that may not be written is a protected byte of the font. -/
theorem fontStops_of_not_writeAllowed (h : ¬ WriteAllowed s a) (ha : a ≤ 0xFFF) : fontStops s a :=
  not_not.1 fun hf => h (writeAllowed_iff.2 ⟨ha, hf⟩)

end Accesses

/-! ### What raises each fault (R200) -/

/-- How many bytes the rule of an instruction reads at I. -/
def readCount : Instr → Nat
  | .drw _ _ n => n
  | .load x => x.val + 1
  | _ => 0

/-- How many bytes the rule of an instruction stores at I. -/
def storeCount : Instr → Nat
  | .ldB _ => 3
  | .dump x => x.val + 1
  | _ => 0

/-- The faults the rule of an instruction raises, each under its condition on the state before the cycle. -/
inductive BodyRaises (s : State) : Instr → Fault → Prop
  | emptyStack (hsp : s.sp.val = 0) : BodyRaises s .ret .stackUnderflow
  | fullStack {nnn : BitVec 12} (hsp : s.sp.val = 16) : BodyRaises s (.call nnn) .stackOverflow
  | skpNoKey {x : Reg} (hx : 15 < (s.reg x).toNat) : BodyRaises s (.skp x) (.keyIndexOutOfRange (s.reg x).toNat)
  | sknpNoKey {x : Reg} (hx : 15 < (s.reg x).toNat) : BodyRaises s (.sknp x) (.keyIndexOutOfRange (s.reg x).toNat)
  | read {i : Instr} {k : Nat} (hk : k < readCount i) (hout : 0xFFF < dataAddr s k) (hbefore : ∀ j < k, dataAddr s j ≤ 0xFFF) :
    BodyRaises s i (.memoryOutOfRange (dataAddr s k))
  | store {i : Instr} {k : Nat} (hk : FirstForbidden s (dataAddr s 0) (storeCount i) k) :
    BodyRaises s i (writeFault (dataAddr s k))

/-- The faults a cycle raises, each with the word its record holds, under its condition on the state before the cycle. -/
inductive Raises (s : State) : Fault → Option Word → Prop
  | misaligned (hc : s.config.oddFetch = .fault) (hodd : s.pc.toNat % 2 = 1) : Raises s .misalignedFetch none
  | outOfRange (heven : s.config.oddFetch = .fault → s.pc.toNat % 2 = 0) (hpc : 0xFFF < s.pc.toNat + 1) :
    Raises s .fetchOutOfRange none
  | unknown {w : Word} (hw : FetchesWord s w) (hd : decode w = none) : Raises s .unknownOpcode (some w)
  | body {i : Instr} {f : Fault} (hr : Runs s i) (hw : FetchesWord s (encode i)) (hf : BodyRaises s i f) :
    Raises s f (some (encode i))

section Raisers

variable {s t : State} {i : Instr} {f : Fault} {w : Option Word}

theorem bodyRaises_of_dataReads {u : Word} {n : Nat} (h : dataReads (s.latch u) (dataAddr s 0) n = .error f)
    (hn : n = readCount i) : BodyRaises s i f := by
  obtain ⟨k, hk, hout, hbefore, rfl⟩ := dataReads_eq_error h
  exact .read (hn ▸ hk) hout hbefore

theorem bodyRaises_of_dataWrites {u : Word} {vs : List Byte} (h : dataWrites (s.latch u) (dataAddr s 0) vs = .error f)
    (hn : vs.length = storeCount i) : BodyRaises s i f := by
  obtain ⟨k, hk, rfl⟩ := dataWrites_eq_error_first h
  exact .store (hn ▸ hk)

/-- A body raises only the faults of its instruction: those of a stack, key or data access are the access's own. -/
theorem bodyRaises_of_body {u : Word} (h : body i (s.latch u) = .error f) : BodyRaises s i f := by
  cases i with
  | ret =>
    simp only [body] at h
    split at h <;> cases h
    obtain ⟨hsp, rfl⟩ := pop_eq_error ‹_›
    exact .emptyStack hsp
  | call =>
    simp only [body] at h
    split at h <;> cases h
    obtain ⟨hsp, rfl⟩ := push_eq_error ‹_›
    exact .fullStack hsp
  | skp =>
    simp only [body] at h
    split at h <;> cases h
    obtain ⟨hx, rfl⟩ := keyOperand_eq_error ‹_›
    exact .skpNoKey hx
  | sknp =>
    simp only [body] at h
    split at h <;> cases h
    obtain ⟨hx, rfl⟩ := keyOperand_eq_error ‹_›
    exact .sknpNoKey hx
  | drw | load =>
    simp only [body] at h
    split at h <;> cases h
    exact bodyRaises_of_dataReads ‹_› rfl
  | ldB => exact bodyRaises_of_dataWrites h rfl
  | dump => exact bodyRaises_of_dataWrites h State.length_regsUpTo
  | ldVxK =>
    simp only [body] at h
    split at h <;> cases h
  | cls | jp | seByte | sneByte | seReg | sneReg | ldByte | addByte | ldReg | orReg | andReg | xorReg => cases h
  | addReg | subReg | shr | subn | shl | ldI | jpV0 | rnd | ldVxDT | ldDTVx | ldSTVx | addI | ldF => cases h

theorem raises_of_fetchWord (h : fetchWord s = .error f) : Raises s f none := by
  unfold fetchWord at h
  split_ifs at h with hodd hpc <;> cases h
  · exact .misaligned hodd.1 ((odd_iff _).1 hodd.2)
  · refine .outOfRange (fun hc => ?_) hpc
    have heven : ¬ s.pc.toNat % 2 = 1 := fun ho => hodd ⟨hc, (odd_iff _).2 ho⟩
    omega

/-- A cycle of a running core that ends halted took a fault, raised by the fetch, the decoder or the body that ran. -/
theorem step_raises (hs : s.halted = false) (h : step s = .next t) (ht : t.halted = true) :
    ∃ f w, t = s.raise f w ∧ Raises s f w := by
  rcases step_cases h with ⟨hh, -⟩ | ⟨-, f, hf, rfl⟩ | ⟨hh, w, hw, hd, rfl⟩ | ⟨hh, w, i, hw, hd, he⟩
  · cases hs.symm.trans hh
  · exact ⟨_, _, rfl, raises_of_fetchWord hf⟩
  · exact ⟨_, _, rfl, .unknown (fetchesWord_iff.2 ⟨hh, hw⟩) hd⟩
  · rw [exec_eq_commit_body] at he
    rcases commit_cases he with hok | ⟨f, herr, rfl⟩
    · cases ht.symm.trans ((body_confined hok).halted.trans hs)
    · have hword : encode i = w := encode_of_decode hd
      exact ⟨_, _, rfl, .body (runs_iff.2 ⟨hh, w, hw, hd⟩) (fetchesWord_iff.2 ⟨hh, hword ▸ hw⟩) (bodyRaises_of_body herr)⟩

/-! ### The word in a record (R202) -/

theorem code_writeFault (a : Nat) : (writeFault a).code = 6 ∨ (writeFault a).code = 7 := by
  unfold writeFault
  split
  · exact .inl rfl
  · exact .inr rfl

theorem BodyRaises.code_ne (h : BodyRaises s i f) : f.code ≠ 4 ∧ f.code ≠ 5 := by
  cases h with
  | emptyStack | fullStack | skpNoKey | sknpNoKey | read => simp [Fault.code]
  | @store _ k _ => have := code_writeFault (dataAddr s k); omega

/-- Only the faults of the fetch, codes 4 and 5, come before a word is fetched. -/
theorem Raises.word_eq_none_iff (h : Raises s f w) : w = none ↔ f.code = 4 ∨ f.code = 5 := by
  cases h with
  | misaligned | outOfRange | unknown => simp [Fault.code]
  | body _ _ hf => simp [hf.code_ne]

theorem Raises.fetchesWord {v : Word} (h : Raises s f (some v)) : FetchesWord s v := by
  cases h with
  | unknown hw | body _ hw => exact hw

/-! ### The instruction behind a count (R200) -/

theorem reader_of_lt_readCount {k : Nat} (hr : Runs s i) (hk : k < readCount i) :
    (∃ x y n, k < n ∧ Runs s (.drw x y n)) ∨ ∃ x : Reg, k ≤ x.val ∧ Runs s (.load x) := by
  cases i with
  | drw x y n => exact .inl ⟨x, y, n, hk, hr⟩
  | load x => exact .inr ⟨x, Nat.le_of_lt_succ hk, hr⟩
  | _ => cases hk

theorem storer_of_lt_storeCount {k : Nat} (hr : Runs s i) (hk : k < storeCount i) :
    (∃ x, k < 3 ∧ Runs s (.ldB x)) ∨ ∃ x : Reg, k ≤ x.val ∧ Runs s (.dump x) := by
  cases i with
  | ldB x => exact .inl ⟨x, hk, hr⟩
  | dump x => exact .inr ⟨x, Nat.le_of_lt_succ hk, hr⟩
  | _ => cases hk

end Raisers

/-! ### The obligations -/

/-- Settles O45: a cycle that ends halted is a fault taken, and only a fault of the fetch has no word. -/
theorem faultsArePrecise : Obligations.FaultsArePrecise := by
  intro s t hs h ht
  obtain ⟨f, w, rfl, hf⟩ := step_raises hs h ht
  refine ⟨⟨f, w, s.pc⟩, rfl, rfl, hf.word_eq_none_iff, ?_⟩
  rintro v rfl
  exact hf.fetchesWord

/-- Settles O46, by what raises the fault taken; a forbidden write is out of range or a protected byte of the font. -/
theorem eachFaultHasItsRaiser : Obligations.EachFaultHasItsRaiser := by
  intro s t r hs h ht hrec
  obtain ⟨f, w, rfl, hf⟩ := step_raises hs h ht
  cases hrec
  cases hf with
  | misaligned hc hodd => exact ⟨hc, hodd⟩
  | outOfRange heven hpc => exact ⟨heven, hpc⟩
  | unknown hw hd => exact ⟨_, hw, hd⟩
  | body hr _ hf =>
    cases hf with
    | emptyStack hsp => exact ⟨hsp, hr⟩
    | fullStack hsp => exact ⟨hsp, _, hr⟩
    | skpNoKey hx => exact ⟨hx, _, rfl, .inl hr⟩
    | sknpNoKey hx => exact ⟨hx, _, rfl, .inr hr⟩
    | read hk hout hbefore => exact ⟨hout, _, rfl, .inl ⟨reader_of_lt_readCount hr hk, hbefore⟩⟩
    | @store _ k hfirst =>
      obtain ⟨hk, hbefore, hforbidden⟩ := hfirst
      have hstorer := storer_of_lt_storeCount hr hk
      by_cases hout : dataAddr s k > 0xFFF
      · rw [writeFault, if_pos hout]
        exact ⟨hout, k, rfl, .inr ⟨hstorer, hbefore⟩⟩
      · rw [writeFault, if_neg hout]
        obtain ⟨hc, hfont⟩ := fontStops_of_not_writeAllowed hforbidden (Nat.not_lt.1 hout)
        exact ⟨hc, hfont, k, rfl, hstorer, hbefore⟩

/-- Settles O43, by induction on the ticks: each leaves the core running, with both timers counted down by one. -/
theorem ticksCountBothTimersDown : Obligations.TicksCountBothTimersDown := by
  intro s n
  induction n generalizing s with
  | zero => exact fun _ => ⟨s, rfl, rfl, rfl, rfl⟩
  | succ n ih =>
    intro hs
    obtain ⟨t, ht, hframe, hDT, hST⟩ := ih { s with DT := countDown s.DT, ST := countDown s.ST } hs
    refine ⟨t, ?_, hframe, ?_, ?_⟩
    · simp only [List.replicate_succ, serveAll, serve, State.tick_of_running hs, ht]
    · rw [hDT, toNat_countDown]; omega
    · rw [hST, toNat_countDown]; omega

/-- Settles O9. -/
theorem everyCycleAnswersANextState : Obligations.EveryCycleAnswersANextState :=
  ⟨step_total, exec_total⟩

/-- Settles O44, by the faults. -/
theorem faultCodesAreTheTable : Obligations.FaultCodesAreTheTable := by
  refine ⟨fun f => ?_, rfl, fun _ => ⟨rfl, rfl, rfl, rfl, rfl, rfl⟩⟩
  cases f <;> simp [Fault.code]

/-- Settles O47: only a cycle and a tick look at `halted`. -/
theorem haltedCoreOnlyAnswersTheHost : Obligations.HaltedCoreOnlyAnswersTheHost := by
  intro s hs
  refine ⟨(cycleAnswersItsOutcome s).1 hs, ?_, fun _ => rfl, rfl, fun image hfits => ?_⟩
  · rw [serve, State.tick_of_halted hs]
  · exact ⟨_, serve_load_of_fits hfits, fun k hk => State.readByte_writeBytes_inside hk⟩

end Sys2Proof.Machine
end

section
/-! What a load answers and leaves in memory, and the word the next cycle fetches after a boot. The obligations of the family
70_reset_and_hazards. -/

namespace Sys2Proof.Machine

section Load

variable {s : State} {image rest : List Byte} {hi lo : Byte} {a b : Nat}

theorem serve_load_of_too_large (h : Config.programMax < image.length) :
    serve (.load image) s = .next (.programTooLarge, s) := by
  rw [serve, State.load, if_pos h]

theorem State.readByte_writeBytes_outside (h : b < a ∨ a + image.length ≤ b) :
    (s.writeBytes a image).readByte b = s.readByte b := by
  rw [State.readByte_writeBytes, if_neg (by omega)]

/-- With pc at PROGRAM_BASE the fetch reads the first two bytes of the image just loaded (R242, 20_memory R52). -/
theorem fetchWord_of_image (hpc : s.pc = 0x200) :
    fetchWord (s.writeBytes Config.programBase (hi :: lo :: rest)) = .ok (bigEndian hi lo) := by
  have hhi : (s.writeBytes Config.programBase (hi :: lo :: rest)).readByte 0x200 = hi :=
    State.readByte_writeBytes_inside (k := 0) (by simp)
  have hlo : (s.writeBytes Config.programBase (hi :: lo :: rest)).readByte 0x201 = lo :=
    State.readByte_writeBytes_inside (k := 1) (by simp)
  refine fetchWord_eq_ok.2 ⟨by simp [hpc], by simp [hpc], ?_⟩
  simp [hpc, hhi, hlo]

theorem fetchesWord_of_image (hs : s.halted = false) (hpc : s.pc = 0x200) :
    FetchesWord (s.writeBytes Config.programBase (hi :: lo :: rest)) (bigEndian hi lo) :=
  fetchesWord_iff.2 ⟨(State.writeBytes_halted ..).trans hs, fetchWord_of_image hpc⟩

end Load

/-- A boot (R245) whose image fits runs through, to the reset state with the image's bytes written. -/
theorem serveAll_boot {s : State} {hiRes superChip : Bool} {image : List Byte} (h : image.length ≤ Config.programMax) :
    serveAll s [.reset hiRes superChip, .load image] =
      .next ((s.resetRequest hiRes superChip).writeBytes Config.programBase image) := by
  have hreset : serve (.reset hiRes superChip) s = .next (.done, s.resetRequest hiRes superChip) := rfl
  simp only [serveAll, hreset, serve_load_of_fits h]

/-! ### The obligations -/

/-- Settles O50: the answer is the size check's, and the copy is consecutive writes from PROGRAM_BASE. -/
theorem loadCopiesTheImage : Obligations.LoadCopiesTheImage :=
  fun _ _ => ⟨serve_load_of_too_large, fun hfits => ⟨_, serve_load_of_fits hfits, State.writeBytes_eq _ _,
    fun _ hk => State.readByte_writeBytes_inside hk, fun _ ha => State.readByte_writeBytes_outside ha⟩⟩

/-- Settles O51: a reset leaves the core running at PROGRAM_BASE, where the load puts the image's first word. -/
theorem bootFetchesTheFirstWord : Obligations.BootFetchesTheFirstWord :=
  fun _ _ _ hi lo _ hfits =>
    ⟨_, bigEndian hi lo, serveAll_boot hfits, fetchesWord_of_image rfl rfl, toNat_bigEndian hi lo⟩

end Sys2Proof.Machine
end
